-- ==== Sys2Proof/Word.lean ====
section
/-! DEFINITION. The widths of the 4917 core: the 4-bit cell and register word, the 5-bit instruction pointer, and the
pair of an address and a cell's content that the memory's list is made of. -/

namespace Sys2Proof

/-- A 4-bit value: the content of a memory cell, of a register, of an operand (R4 `CELL_WIDTH`, `REG_WIDTH`; R7). What the
source calls a byte is this (R8, C2): no upper half exists. -/
abbrev Nibble := BitVec 4

/-- The instruction pointer ip: 5 bits, unsigned, so that it can pass cell 15 (R13; D5). -/
abbrev Pc := BitVec 5

/-- One cell of memory: its address and its 4-bit content (R17, R30). Only a listed cell appears as such a pair. -/
abbrev Cell := Nat × Nibble

end Sys2Proof
end

