-- ==== Sys2Proof/Config.lean ====
section
/-! DEFINITION. The parameters of the hardware (00_scope.md R4): the fixed ones as constants, the two OPEN ones as closed
types. The value of `OobOperandPolicy` a machine is built with stands in its State (log entry 1). -/

namespace Sys2Proof.Config

/-- `MEM_CELLS` (R4): sixteen cells, addresses 0 to 15. -/
abbrev memCells : Nat := 16

/-- `OPERAND_THRESHOLD` (R4, R50): opcodes 8 to 15 take one operand cell, opcodes 0 to 7 take none. -/
abbrev operandThreshold : Nat := 8

/-- `OOB_OPERAND_POLICY` (R4; D3): what the operand fetch does when ip has run past cell 15. -/
inductive OobOperandPolicy where
  /-- Raise OperandFetchOutOfRange (R121); the spec's default. -/
  | fault
  /-- The operand is 0 and ip advances once more (R122). -/
  | readZero
deriving DecidableEq, Repr

/-- `BELL_RENDERING` (R4, R94; D8): how the HOST writes a BELL event. No rule of the block depends on it. -/
inductive BellRendering where
  /-- The raw terminal-bell control character. -/
  | bellCharacter
  /-- A textual alert marker, whose spelling the spec does not give (N12): it is carried as a parameter. -/
  | placeholderToken (marker : List Char)
deriving DecidableEq, Repr

/-- The terminal-bell control character, ASCII BEL, code 7. PRESUMED: the spec marks it as general knowledge
(R94, G1; log entry 11). Host only. -/
def bellCharacterCode : Char := Char.ofNat 7

end Sys2Proof.Config
end

