-- ==== Sys2Proof/Machine/State.lean ====
section
/-! DEFINITION. The state of the block (10_state.md), its output events, the reasons a step can stop, and the state right
after reset. -/

namespace Sys2Proof.Machine

open Sys2Proof.Config

/-- An output event of the block (R5, R90, R91). -/
inductive Event where
  /-- `PRINT(v)`. -/
  | print (value : Nibble)
  /-- `BELL`. -/
  | bell
deriving DecidableEq, Repr

/-- The run status (R18, R19; D4). It has no numeric encoding and no instruction reads it. -/
inductive RunStatus where
  /-- The block takes steps. -/
  | running
  /-- A HALT or an implicit halt was executed: the run has ended normally. -/
  | halted
  /-- OperandFetchOutOfRange was raised: the run has ended abnormally. -/
  | faulted
deriving DecidableEq, Repr

/-- The two general registers (R10). -/
inductive Reg where
  /-- r0, `x[0]`. -/
  | r0
  /-- r1, `x[1]`. -/
  | r1
deriving DecidableEq, Repr

/-- The memory's content: the cells that hold a value other than 0, addresses strictly rising. A cell that is not listed
reads 0, as memory is created (R23: "created empty (all zero)"; log entry 2). -/
abbrev Memory := List Cell

/-- The canonical form from address `lo` on: each address is at least `lo`, is a cell of memory, is below every later one,
and its content is not what an unlisted cell reads as. -/
def Memory.wfFrom (lo : Nat) : Memory → Bool
  | [] => true
  | (addr, value) :: rest =>
    decide (lo ≤ addr) && decide (addr < memCells) && decide (value ≠ 0#4) && Memory.wfFrom (addr + 1) rest

/-- The memory is in canonical form, so that equal memories are equal data. -/
def Memory.wf (m : Memory) : Bool := Memory.wfFrom 0 m

/-- The state of the block (10_state.md) with its output history (R22) and the value of its one OPEN parameter. -/
structure State where
  /-- Register r0 (R10). -/
  r0 : Nibble
  /-- Register r1 (R10). -/
  r1 : Nibble
  /-- The instruction pointer ip (R13). -/
  pc : Pc
  /-- The run status (R18). -/
  status : RunStatus
  /-- The sixteen cells, code and data (R17). -/
  mem : Memory
  /-- The output trace: the events since reset, oldest first (R5, R22; log entry 6). -/
  trace : List Event
  /-- `OOB_OPERAND_POLICY`, which no step changes (R4; log entry 1). -/
  oobPolicy : OobOperandPolicy
deriving DecidableEq, Repr

/-- The machine right after reset (R23), with the all-zero image and the spec's default policy (log entries 1 and 9). -/
def State.reset : State :=
  { r0 := 0#4, r1 := 0#4, pc := 0#5, status := .running, mem := [], trace := [], oobPolicy := .fault }

/-- Why a step stops with a fault. -/
inductive Fault where
  /-- The block has stopped in FAULTED (R121, R127): raised by `step` in a state whose status is already FAULTED, with the
  ip that state holds. The step that raises OperandFetchOutOfRange answers a NEXT state, the one R121 describes. Safe: the
  spec says that no step exists there, and nothing can be proved of a run beyond it (log entry 4). -/
  | operandFetchOutOfRange (pc : Pc)
deriving DecidableEq, Repr

/-- Why a step has no meaning. -/
inductive Refusal where
  /-- An instruction with no meaning in this model, by its mnemonic. No arm of `exec` raises it: all sixteen instructions
  have their meaning. Safe. -/
  | notModelled (mnemonic : String)
deriving DecidableEq, Repr

/-- What one step, or one instruction's effect, answers. -/
abbrev Result := Host.Outcome State Fault Refusal

end Sys2Proof.Machine
end

