-- ==== Sys2Proof/Machine/Ops.lean ====
section
/-! DEFINITION. The named operations every instruction is written with: memory, registers, ip, output, run status, the one
fault and reset. Each is the pseudocode word of 00_scope.md R7 or the action of the rule it cites. -/

namespace Sys2Proof.Machine

open Sys2Proof.Config

/-! Memory as a list in canonical form. -/

/-- The content of the cell at `addr`: the value listed there, else 0 (R23; log entry 2). -/
def Memory.readCell : Memory → Nat → Nibble
  | [], _ => 0#4
  | (a, v) :: rest, addr => if a = addr then v else Memory.readCell rest addr

/-- The memory without an entry for `addr`. -/
def Memory.eraseCell : Memory → Nat → Memory
  | [], _ => []
  | (a, v) :: rest, addr => if a = addr then Memory.eraseCell rest addr else (a, v) :: Memory.eraseCell rest addr

/-- The entry put before the first one of a higher address. -/
def Memory.insertCell : Memory → Nat → Nibble → Memory
  | [], addr, value => [(addr, value)]
  | (a, v) :: rest, addr, value =>
    if addr < a then (addr, value) :: (a, v) :: rest else (a, v) :: Memory.insertCell rest addr value

/-- Cell `addr` becomes `value` and no other cell changes (R35); the value an unlisted cell reads as is not listed. -/
def Memory.writeCell (m : Memory) (addr : Nat) (value : Nibble) : Memory :=
  if value = 0#4 then m.eraseCell addr else (m.eraseCell addr).insertCell addr value

/-- The canonical memory that holds a list of cells from address `addr` on. -/
def Memory.ofCells : Nat → List Nibble → Memory
  | _, [] => []
  | addr, v :: rest => if v = 0#4 then Memory.ofCells (addr + 1) rest else (addr, v) :: Memory.ofCells (addr + 1) rest

/-- `MemRead(a, 1)` (R7, R33): total, since a 4-bit address always names a cell (R36). -/
def State.memRead (s : State) (addr : Nibble) : Nibble := s.mem.readCell addr.toNat

/-- `MemWrite(a, 1, v)` (R7, R33, R36). -/
def State.memWrite (s : State) (addr value : Nibble) : State := { s with mem := s.mem.writeCell addr.toNat value }

/-- The cells from address `addr` to cell 15, in address order. -/
def State.cellsFrom (s : State) (addr : Nat) : List Nibble :=
  (List.range' addr (memCells - addr)).map s.mem.readCell

/-! Registers: neither is hardwired (R10). -/

/-- `x[i]` (R7). -/
def State.readReg (s : State) : Reg → Nibble
  | .r0 => s.r0
  | .r1 => s.r1

/-- `x[i] <- v` (R7): the other register does not change (R10). -/
def State.writeReg (s : State) : Reg → Nibble → State
  | .r0, value => { s with r0 := value }
  | .r1, value => { s with r1 := value }

/-- The residue modulo 16 of an exact integer result, 0 to 15 whatever its sign (R80; `a mod 16` of R7). -/
def residue (exact : Int) : Nibble := BitVec.ofNat 4 (exact % 16).toNat

/-! The instruction pointer. -/

/-- `pc <- t` (R7). -/
def State.setPc (s : State) (t : Pc) : State := { s with pc := t }

/-- The increment of ip after a cell is fetched (R13, R70). -/
def State.advancePc (s : State) : State := s.setPc (s.pc + 1#5)

/-- ip has passed the last cell: `pc > 15` (R70). -/
def State.pcBeyondMemory (s : State) : Bool := decide (memCells ≤ s.pc.toNat)

/-- The cell that ip names, where it names one (R13, R15). -/
def State.pcCell (s : State) : Nibble := s.pc.setWidth 4

/-! Output and run status. -/

/-- `Emit(e)`: append the event to the output trace (R7, R92). -/
def State.emit (s : State) (e : Event) : State := { s with trace := s.trace ++ [e] }

/-- `status <- s` (R7). -/
def State.setStatus (s : State) (st : RunStatus) : State := { s with status := st }

/-- Taking the fault OperandFetchOutOfRange, the block's only exception (R121): status becomes FAULTED; ip, registers,
memory and trace stay as they stand. It has no handler, saves nothing more (R126) and has no return (R127). -/
def State.raiseOperandFetchOutOfRange (s : State) : State := s.setStatus .faulted

/-- What `step` answers in HALTED: the state, held unchanged until reset (R19, R133; log entry 3). -/
def State.heldHalted (s : State) : Result := .next s

/-- What `step` answers in FAULTED: the block has stopped with the fault (R121, R127; log entry 4). -/
def State.stoppedFaulted (s : State) : Result := .fault (.operandFetchOutOfRange s.pc)

/-! Reset. -/

/-- The sixteen cell values that reset presents to the block (R5, R140). -/
abbrev Image := Vector Nibble memCells

/-- The state right after reset with an image (R23, R140), of a machine built with the policy. -/
def State.resetWith (policy : OobOperandPolicy) (image : Image) : State :=
  { r0 := 0#4, r1 := 0#4, pc := 0#5, status := .running, mem := Memory.ofCells 0 image.toList, trace := [],
    oobPolicy := policy }

/-- Reset applied to a block in any state (R142): all state and the trace are discarded. The policy is a parameter of the
machine and stays (log entry 10). -/
def State.applyReset (s : State) (image : Image) : State := State.resetWith s.oobPolicy image

end Sys2Proof.Machine
end

