-- ==== Sys2Proof/Machine/Arith.lean ====
section
/-! DEFINITION. The arithmetic instructions (41_arithmetic.md): exact integer arithmetic, then the residue modulo 16. -/

namespace Sys2Proof.Machine

/-- `x[d] <- (x[d] + n) mod 16` for an exact integer `n` (R80). -/
def addToReg (d : Reg) (n : Int) (s : State) : State := s.writeReg d (residue (((s.readReg d).toNat : Int) + n))

/-- ADD (R81). -/
def execAdd (s : State) : Result := .next (addToReg .r0 (s.readReg .r1).toNat s)

/-- SUB (R82). -/
def execSub (s : State) : Result := .next (addToReg .r0 (-((s.readReg .r1).toNat : Int)) s)

/-- INC0 (R83). -/
def execInc0 (s : State) : Result := .next (addToReg .r0 1 s)

/-- INC1 (R84). -/
def execInc1 (s : State) : Result := .next (addToReg .r1 1 s)

/-- DEC0 (R85). -/
def execDec0 (s : State) : Result := .next (addToReg .r0 (-1) s)

/-- DEC1 (R86). -/
def execDec1 (s : State) : Result := .next (addToReg .r1 (-1) s)

end Sys2Proof.Machine
end

