-- ==== Sys2Proof/Machine/Halt.lean ====
section
/-! DEFINITION. HALT (40_cycle_and_halt.md). -/

namespace Sys2Proof.Machine

/-- HALT (R74), fetched or implicit (R71): the loop test of R75 ends the run. -/
def execHalt (s : State) : Result := .next (s.setStatus .halted)

end Sys2Proof.Machine
end

