-- ==== Sys2Proof/Machine/Flags.lean ====
section
/-! DEFINITION. The hardware has no flag, so nothing here is written by an instruction (R16, R87). What stands in a flag's
place is the test that the conditional jumps make on r0 itself. -/

namespace Sys2Proof.Machine

/-- r0 = 0, tested on the register at the moment of the jump (R16, R112, R113). -/
def State.r0IsZero (s : State) : Bool := s.readReg .r0 == 0#4

end Sys2Proof.Machine
end

