-- ==== Sys2Proof/Machine/Operands.lean ====
section
/-! DEFINITION. The forms an operand takes: an immediate, an absolute data address, an absolute jump target. There is no
other (R53, R100, R110). -/

namespace Sys2Proof.Machine

/-- PRINT's operand is the value itself, not an address (R53, R91). -/
def immediate (operand : Nibble) : Nibble := operand

/-- Absolute direct, the one addressing mode: `ea = operand` (R100). -/
def effectiveAddress (operand : Nibble) : Nibble := operand

/-- `target = zext_5(operand)`, absolute; nothing is added to it (R110). -/
def jumpTarget (operand : Nibble) : Pc := operand.setWidth 5

end Sys2Proof.Machine
end

