-- ==== Sys2Proof/Machine/Jumps.lean ====
section
/-! DEFINITION. The jump instructions (44_jumps.md). ip already holds the fall-through address `a + 2` (R110). -/

namespace Sys2Proof.Machine

/-- `pc <- zext_5(operand)` if the condition holds; otherwise ip keeps its value (R110). -/
def jumpIf (cond : Bool) (operand : Nibble) (s : State) : State := if cond then s.setPc (jumpTarget operand) else s

/-- JMP (R111). -/
def execJmp (target : Nibble) (s : State) : Result := .next (jumpIf true target s)

/-- JZ (R112). -/
def execJz (target : Nibble) (s : State) : Result := .next (jumpIf s.r0IsZero target s)

/-- JNZ (R113). -/
def execJnz (target : Nibble) (s : State) : Result := .next (jumpIf (!s.r0IsZero) target s)

end Sys2Proof.Machine
end

