-- ==== Sys2Proof/Machine/LoadStore.lean ====
section
/-! DEFINITION. The load and store instructions (43_load_store.md). -/

namespace Sys2Proof.Machine

/-- `x[d] <- MemRead(ea, 1)`: all four bits of the cell (R100). -/
def loadReg (d : Reg) (operand : Nibble) (s : State) : State := s.writeReg d (s.memRead (effectiveAddress operand))

/-- `MemWrite(ea, 1, x[r])`: all four bits of the register (R100). -/
def storeReg (r : Reg) (operand : Nibble) (s : State) : State := s.memWrite (effectiveAddress operand) (s.readReg r)

/-- LOAD0 (R101). -/
def execLoad0 (addr : Nibble) (s : State) : Result := .next (loadReg .r0 addr s)

/-- LOAD1 (R102). -/
def execLoad1 (addr : Nibble) (s : State) : Result := .next (loadReg .r1 addr s)

/-- STORE0 (R103). -/
def execStore0 (addr : Nibble) (s : State) : Result := .next (storeReg .r0 addr s)

/-- STORE1 (R104). -/
def execStore1 (addr : Nibble) (s : State) : Result := .next (storeReg .r1 addr s)

end Sys2Proof.Machine
end

