-- ==== Sys2Proof/Machine/Output.lean ====
section
/-! DEFINITION. The output instructions (42_output.md section 1). -/

namespace Sys2Proof.Machine

/-- BELL (R90). -/
def execBell (s : State) : Result := .next (s.emit .bell)

/-- PRINT (R91). -/
def execPrint (value : Nibble) (s : State) : Result := .next (s.emit (.print (immediate value)))

end Sys2Proof.Machine
end

