-- ==== Sys2Proof/Syntax.lean ====
section
/-! DEFINITION. The abstract syntax: one constructor per row of spec/opcode_table.json, in the table's order (R54).
The operand of a format A instruction is its second cell, a 4-bit value (R53), so every term is one the encoding admits. -/

namespace Sys2Proof

/-- The sixteen instructions (R54). The set is closed (R1, R56). -/
inductive Instr where
  /-- Opcode 0 (R74). -/
  | halt
  /-- Opcode 1 (R81). -/
  | add
  /-- Opcode 2 (R82). -/
  | sub
  /-- Opcode 3 (R83). -/
  | inc0
  /-- Opcode 4 (R84). -/
  | inc1
  /-- Opcode 5 (R85). -/
  | dec0
  /-- Opcode 6 (R86). -/
  | dec1
  /-- Opcode 7 (R90). -/
  | bell
  /-- Opcode 8; the operand is the value printed (R91). -/
  | print (value : Nibble)
  /-- Opcode 9; the operand is a data address (R101). -/
  | load0 (addr : Nibble)
  /-- Opcode 10; the operand is a data address (R102). -/
  | load1 (addr : Nibble)
  /-- Opcode 11; the operand is a data address (R103). -/
  | store0 (addr : Nibble)
  /-- Opcode 12; the operand is a data address (R104). -/
  | store1 (addr : Nibble)
  /-- Opcode 13; the operand is the target (R111). -/
  | jmp (target : Nibble)
  /-- Opcode 14; the operand is the target (R112). -/
  | jz (target : Nibble)
  /-- Opcode 15; the operand is the target (R113). -/
  | jnz (target : Nibble)
deriving DecidableEq, Repr

/-- How many cells the instruction occupies: one in format N, two in format A (R50; the table's `length_cells`). -/
def Instr.lengthCells : Instr → Nat
  | .halt => 1
  | .add => 1
  | .sub => 1
  | .inc0 => 1
  | .inc1 => 1
  | .dec0 => 1
  | .dec1 => 1
  | .bell => 1
  | .print _ => 2
  | .load0 _ => 2
  | .load1 _ => 2
  | .store0 _ => 2
  | .store1 _ => 2
  | .jmp _ => 2
  | .jz _ => 2
  | .jnz _ => 2

end Sys2Proof
end

