-- ==== Sys2Proof/Machine/Dispatch.lean ====
section
/-! DEFINITION. Phase 3 of the step (R70, R73): total and exclusive dispatch. The state given is the one the fetch has
left, ip past the instruction's last cell (R72). -/

namespace Sys2Proof.Machine

def exec (i : Instr) (s : State) : Host.Outcome State Fault Refusal :=
  match i with
  | .halt => Sys2Proof.Machine.execHalt s
  | .add => Sys2Proof.Machine.execAdd s
  | .sub => Sys2Proof.Machine.execSub s
  | .inc0 => Sys2Proof.Machine.execInc0 s
  | .inc1 => Sys2Proof.Machine.execInc1 s
  | .dec0 => Sys2Proof.Machine.execDec0 s
  | .dec1 => Sys2Proof.Machine.execDec1 s
  | .bell => Sys2Proof.Machine.execBell s
  | .print value => Sys2Proof.Machine.execPrint value s
  | .load0 addr => Sys2Proof.Machine.execLoad0 addr s
  | .load1 addr => Sys2Proof.Machine.execLoad1 addr s
  | .store0 addr => Sys2Proof.Machine.execStore0 addr s
  | .store1 addr => Sys2Proof.Machine.execStore1 addr s
  | .jmp target => Sys2Proof.Machine.execJmp target s
  | .jz target => Sys2Proof.Machine.execJz target s
  | .jnz target => Sys2Proof.Machine.execJnz target s

end Sys2Proof.Machine
end

