-- ==== Sys2Proof/Decode.lean ====
section
/-! DEFINITION. The decoder of cells (30_encoding.md), total and rejecting by name; after it the encoder, and the reading
of a word numbered as spec/opcode_table.json numbers its bits. -/

namespace Sys2Proof

/-- Why a list of cells holds no whole instruction. There is no illegal opcode and no illegal operand (R56). -/
inductive DecodeError where
  /-- No cell at all: in the machine this is the implicit halt, which has no encoding (R59). -/
  | noOpcodeCell
  /-- An opcode of 8 or more with no cell after it (R53); in the machine the case of R121 and R122. -/
  | noOperandCell (opcode : Nibble)
deriving DecidableEq, Repr

/-- The opcode takes an operand cell: opcode 8 or more (R50, R55). -/
def takesOperand (opcode : Nibble) : Bool := decide (Config.operandThreshold ≤ opcode.toNat)

/-- The opcode map of R54, read off its binary column, most significant bit first. `operand` is the content of the operand
cell; the eight format N opcodes have none and ignore it. -/
def decodeCells (opcode operand : Nibble) : Instr :=
  match opcode[3], opcode[2], opcode[1], opcode[0] with
  | false, false, false, false => .halt
  | false, false, false, true  => .add
  | false, false, true,  false => .sub
  | false, false, true,  true  => .inc0
  | false, true,  false, false => .inc1
  | false, true,  false, true  => .dec0
  | false, true,  true,  false => .dec1
  | false, true,  true,  true  => .bell
  | true,  false, false, false => .print operand
  | true,  false, false, true  => .load0 operand
  | true,  false, true,  false => .load1 operand
  | true,  false, true,  true  => .store0 operand
  | true,  true,  false, false => .store1 operand
  | true,  true,  false, true  => .jmp operand
  | true,  true,  true,  false => .jz operand
  | true,  true,  true,  true  => .jnz operand

/-- Decode the instruction at the head of a list of cells, lowest address first, and give the rest of the list
(R50, R52, R58: the opcode cell alone decides whether a second cell is read). -/
def decode : List Nibble → Except DecodeError (Instr × List Nibble)
  | [] => .error .noOpcodeCell
  | opcode :: rest =>
    match takesOperand opcode, rest with
    | false, _ => .ok (decodeCells opcode 0#4, rest)
    | true, [] => .error (.noOperandCell opcode)
    | true, operand :: rest' => .ok (decodeCells opcode operand, rest')

/-- The cells of an instruction, opcode first (R51, R52, R54). -/
def encode : Instr → List Nibble
  | .halt => [0#4]
  | .add => [1#4]
  | .sub => [2#4]
  | .inc0 => [3#4]
  | .inc1 => [4#4]
  | .dec0 => [5#4]
  | .dec1 => [6#4]
  | .bell => [7#4]
  | .print value => [8#4, value]
  | .load0 addr => [9#4, addr]
  | .load1 addr => [10#4, addr]
  | .store0 addr => [11#4, addr]
  | .store1 addr => [12#4, addr]
  | .jmp target => [13#4, target]
  | .jz target => [14#4, target]
  | .jnz target => [15#4, target]

/-- The two cells, lower address first, that a word of spec/opcode_table.json stands for (R52; DEDUCED, log entry 8).
A row of format A is the 8-bit string `oooo vvvv`: opcode in bits 7:4, operand in bits 3:0. A row of format N is the one
cell in bits 3:0, with the cell after it zero. In a word given in whole bytes the top bit tells the two apart, since an
opcode of format A has its own top bit set; a word of at most four bits is an opcode cell followed by a zero cell. `none`
where no row of the table has the word. -/
def tableCells (nbits w : Nat) : Option (Nibble × Nibble) :=
  let low : Nibble := BitVec.ofNat 4 w
  let high : Nibble := BitVec.ofNat 4 (w / 16)
  if nbits ≤ 4 then some (low, 0#4)
  else if takesOperand high then some (high, low)
  else if takesOperand low then none
  else some (low, 0#4)

/-- The instruction the decoder reads from a word numbered as spec/opcode_table.json numbers it: its cells are laid out in
address order and given to `decode`. -/
def decodeTableWord (nbits w : Nat) : Option Instr :=
  match tableCells nbits w with
  | none => none
  | some (first, second) =>
    match decode [first, second] with
    | .ok (i, _) => some i
    | .error _ => none

end Sys2Proof
end

