-- ==== Sys2Proof/Machine/Fetch.lean ====
section
/-! DEFINITION. Phases 1 and 2 of the step (R70 to R72): opcode fetch and operand fetch, each reading memory afresh
(R21, R41). Beside them the placing of two cells where the next fetch reads. -/

namespace Sys2Proof.Machine

/-- What the fetch phases give. -/
inductive Fetched where
  /-- The instruction to dispatch and the state it is dispatched in, ip advanced (R72). -/
  | execute (i : Instr) (s : State)
  /-- The operand fetch found ip above 15 under the policy `fault` (R121); the state is the one the fetch has left. -/
  | operandOutOfRange (s : State)
deriving DecidableEq, Repr

/-- Phase 2 for an opcode that takes an operand; `s` is the state after phase 1 (R72). With ip above 15 no cell is read:
the fault of R121, or operand 0 with a second increment of ip, R122. -/
def fetchOperand (opcode : Nibble) (s : State) : Fetched :=
  if s.pcBeyondMemory then
    match s.oobPolicy with
    | .fault => .operandOutOfRange s
    | .readZero => .execute (decodeCells opcode 0#4) s.advancePc
  else .execute (decodeCells opcode (s.memRead s.pcCell)) s.advancePc

/-- Phases 1 and 2 (R70). With ip above 15 at the start: the implicit halt, no cell read and ip unchanged (R71). -/
def fetch (s : State) : Fetched :=
  if s.pcBeyondMemory then .execute .halt s
  else if takesOperand (s.memRead s.pcCell) then fetchOperand (s.memRead s.pcCell) s.advancePc
  else .execute (decodeCells (s.memRead s.pcCell) 0#4) s.advancePc

/-- Cell `addr` becomes `value` where the address names a cell; otherwise nothing changes. -/
def State.placeCell (s : State) (addr : Nat) (value : Nibble) : State :=
  if addr < Config.memCells then { s with mem := s.mem.writeCell addr value } else s

/-- Two cells stored where the next step fetches, at ip and after it, in a block that takes its step (R70). Above cell 15
there is nothing to store in (log entry 8). -/
def State.placeAtPc (s : State) (first second : Nibble) : State :=
  ((s.placeCell s.pc.toNat first).placeCell (s.pc.toNat + 1) second).setStatus .running

end Sys2Proof.Machine
end

