-- ==== Sys2Proof/Machine/Step.lean ====
section
/-! DEFINITION. One step of the block (R70), and the placing of a table word for the next step. -/

namespace Sys2Proof.Machine

/-- One step (R70): in RUNNING the fetch phases and then the instruction's effect or the fault; in HALTED and FAULTED the
block has stopped (R19, R77; log entries 3 and 4). -/
def step (s : State) : Host.Outcome State Fault Refusal :=
  match s.status with
  | .running =>
    match fetch s with
    | .execute i t => exec i t
    | .operandOutOfRange t => .next t.raiseOperandFetchOutOfRange
  | .halted => s.heldHalted
  | .faulted => s.stoppedFaulted

/-- The state with the instruction of a table word (numbered as for `decodeTableWord`) stored where the next step fetches.
Where no row of the table has the word, nothing changes (log entries 8 and 9). -/
def State.withFetchWord (s : State) (nbits w : Nat) : State :=
  match tableCells nbits w with
  | none => s
  | some (first, second) => s.placeAtPc first second

end Sys2Proof.Machine
end

