-- ==== Sys2Proof/Machine/Loader.lean ====
section
/-! DEFINITION. HOST, not hardware (R3): the Loader that makes the reset image from program text (70_reset_and_hazards.md
R144 to R150). No rule of the block depends on it. A character stream is the list of its characters. -/

namespace Sys2Proof.Machine

open Sys2Proof.Config

/-- The Loader's errors (R123). The message texts are not given (N13; log entry 12). -/
inductive LoadError where
  /-- A given path does not exist or is not readable (R148). -/
  | cannotOpenInput
  /-- A 17th token (R145). -/
  | programTooLarge
  /-- A negative token (R145); unreachable, since `-` is a separator. -/
  | negativeInstruction
  /-- A token above 15 (R145). -/
  | instructionTooLarge
  /-- Two or more command-line arguments (R149). -/
  | usageError
deriving DecidableEq, Repr

/-- An ASCII decimal digit, `0` to `9`; every other character is a separator (R144; D16). -/
def isDigit (c : Char) : Bool := decide (48 ≤ c.toNat) && decide (c.toNat ≤ 57)

/-- The exact natural number that a token's digits spell, however many there are (R145; D16). -/
def tokenValue (digits : List Char) : Nat := digits.foldl (fun n c => 10 * n + (c.toNat - 48)) 0

/-- The three checks on a parsed token, in the listed order (R145; D15); `loaded` is how many cells are already appended. -/
def checkToken (loaded : Nat) (value : Int) : Option LoadError :=
  if memCells ≤ loaded then some .programTooLarge
  else if value < 0 then some .negativeInstruction
  else if 15 < value then some .instructionTooLarge
  else none

/-- The end of a token (R144): an empty buffer appends nothing; else the token is checked and appended as the next cell. -/
def flushToken (cells : List Nibble) (buffer : List Char) : Except LoadError (List Nibble) :=
  if buffer.isEmpty then .ok cells
  else
    match checkToken cells.length (tokenValue buffer : Int) with
    | some e => .error e
    | none => .ok (cells ++ [BitVec.ofNat 4 (tokenValue buffer)])

/-- The scan of the character stream (R144, R147): a digit joins the buffer, any other character and the end of the stream
flush it, and the first failing token ends the scan (R146). -/
def scanText : List Char → List Nibble → List Char → Except LoadError (List Nibble)
  | [], cells, buffer => flushToken cells buffer
  | c :: rest, cells, buffer =>
    if isDigit c then scanText rest cells (buffer ++ [c])
    else
      match flushToken cells buffer with
      | .error e => .error e
      | .ok cells' => scanText rest cells' []

/-- The token sequence of a program text (R61, R144). -/
def loadTokens (text : List Char) : Except LoadError (List Nibble) := scanText text [] []

/-- The image of a token sequence: the tokens in order, zero-padded to sixteen cells (R150). -/
def imageOfTokens (tokens : List Nibble) : Image := Vector.ofFn fun k => tokens.getD k.val 0#4

/-- The image of a program text, or the first error in stream order (R146, R150). -/
def loadImage (text : List Char) : Except LoadError Image :=
  match loadTokens text with
  | .error e => .error e
  | .ok tokens => .ok (imageOfTokens tokens)

/-- The command's three cases (R149). An argument is given as what opening its path yields: the text, or `none` where the
path cannot be opened for reading (R148). -/
def loadInvocation (args : List (Option (List Char))) (stdin : List Char) : Except LoadError Image :=
  match args with
  | [] => loadImage stdin
  | [arg] =>
    match arg with
    | none => .error .cannotOpenInput
    | some text => loadImage text
  | _ :: _ :: _ => .error .usageError

end Sys2Proof.Machine
end

