-- ==== Sys2Proof/Machine/Render.lean ====
section
/-! DEFINITION. HOST, not hardware (R3): the text of the output trace and the result of a whole invocation (42_output.md
R93 to R95; 70_reset_and_hazards.md R156). No rule of the block depends on it. -/

namespace Sys2Proof.Machine

open Sys2Proof.Config

/-- The character of a decimal digit. -/
def digitChar (d : Nat) : Char := Char.ofNat (48 + d)

/-- The decimal numeral of a value 0 to 15, without a leading zero (R93). -/
def decimalNumeral (v : Nibble) : List Char :=
  if v.toNat < 10 then [digitChar v.toNat] else [digitChar 1, digitChar (v.toNat - 10)]

/-- The text of one event (R93, R94). -/
def renderEvent (bell : BellRendering) : Event → List Char
  | .print v => decimalNumeral v ++ [' ']
  | .bell =>
    match bell with
    | .bellCharacter => [bellCharacterCode]
    | .placeholderToken marker => marker

/-- The text of a trace: its events' texts in order (R92, R95). -/
def renderTrace (bell : BellRendering) (trace : List Event) : List Char := trace.flatMap (renderEvent bell)

/-- What the user of the command sees: standard output so far, the exit code where the spec gives one, and the error whose
message stands on standard error. -/
structure Observation where
  /-- Standard output. -/
  stdout : List Char
  /-- The exit code; none while the process runs, and none after a fault, where none may be claimed (R126; log entry 13). -/
  exitCode : Option Nat
  /-- The Loader's error (R146). -/
  loadError : Option LoadError
deriving DecidableEq, Repr

/-- The host's rendering of a block's trace and status (R95, R126, R156): after a halt one newline and exit code 0; else
the events' texts alone. -/
def observe (bell : BellRendering) (s : State) : Observation :=
  match s.status with
  | .running => { stdout := renderTrace bell s.trace, exitCode := none, loadError := none }
  | .halted => { stdout := renderTrace bell s.trace ++ ['\n'], exitCode := some 0, loadError := none }
  | .faulted => { stdout := renderTrace bell s.trace, exitCode := none, loadError := none }

/-- The block after at most `fuel` steps: it keeps the last state where `step` answers no next one (R77, R132). -/
def runFor : Nat → State → State
  | 0, s => s
  | fuel + 1, s =>
    match step s with
    | .next t => runFor fuel t
    | .fault _ => s
    | .refused _ => s

/-- A whole invocation, seen after at most `fuel` steps of the block (R156): a Loader error gives nothing on standard
output and exit code 1, and no step is taken (R146). -/
def invoke (bell : BellRendering) (policy : OobOperandPolicy) (args : List (Option (List Char))) (stdin : List Char)
    (fuel : Nat) : Observation :=
  match loadInvocation args stdin with
  | .error e => { stdout := [], exitCode := some 1, loadError := some e }
  | .ok image => observe bell (runFor fuel (State.resetWith policy image))

end Sys2Proof.Machine
end

