-- ==== Sys2Proof/Safety.lean ====
section
/-! DEFINITION. What the statements and claims speak of: the invariant of the state (R24), the abnormal end of a
run (R154), and how a step runs an opcode of each format. -/

namespace Sys2Proof.Machine

open Sys2Proof.Config

/-- The invariant of the reachable states (R15, R19, R24, R122): memory in canonical form; ip at most 17, and at most 16
under the policy `fault`; FAULTED only with ip 16, and never under `readZero`. That cells and registers hold 0 to 15 is in
their type. -/
structure State.Inv (s : State) : Prop where
  /-- The memory keeps its canonical form. -/
  memWf : s.mem.wf = true
  /-- ip is at most 17. -/
  pcLe : s.pc.toNat ≤ 17
  /-- Under `fault` ip is at most 16. -/
  pcLeFault : s.oobPolicy = .fault → s.pc.toNat ≤ 16
  /-- FAULTED is reached by the fault only. -/
  faultedAt : s.status = .faulted → s.oobPolicy = .fault ∧ s.pc.toNat = 16

/-- The run has not ended abnormally (R154): what a safe run keeps. -/
abbrev State.Safe (s : State) : Prop := s.status ≠ .faulted

/-- The content of the cell that ip names, where ip is at most 15: the opcode a step here fetches (R70). -/
def State.opcodeAtPc (s : State) : Nibble := s.mem.readCell s.pc.toNat

/-- The content of the cell after the one ip names, where ip is at most 14 (R72). -/
def State.operandAtPc (s : State) : Nibble := s.mem.readCell (s.pc.toNat + 1)

/-- The block takes a step here and its opcode fetch reads this opcode from a cell (R70). -/
abbrev State.standsAt (s : State) (opcode : Nibble) : Prop :=
  s.status = .running ∧ s.pc.toNat ≤ 15 ∧ s.opcodeAtPc = opcode

/-- Every cell reads in `t` as it reads in `s`. -/
def State.sameCells (s t : State) : Prop := ∀ addr : Nat, t.mem.readCell addr = s.mem.readCell addr

/-- Every cell but the one at `target` reads in `t` as it reads in `s`. -/
def State.sameCellsBut (target : Nat) (s t : State) : Prop :=
  ∀ addr : Nat, addr ≠ target → t.mem.readCell addr = s.mem.readCell addr

/-- How the step runs a format N opcode (R14, R72): its instruction's effect, with ip one cell on. -/
def oneCellRule (opcode : Nibble) (i : Instr) : Prop :=
  ∀ s : State, s.standsAt opcode → step s = exec i (s.setPc (s.pc + 1#5))

/-- How the step runs a format A opcode below cell 15 (R14, R72): its instruction's effect with the operand that the cell
after it held at the start of the step, with ip two cells on. -/
def twoCellRule (opcode : Nibble) (build : Nibble → Instr) : Prop :=
  ∀ s : State, s.standsAt opcode → s.pc.toNat ≤ 14 → step s = exec (build s.operandAtPc) (s.setPc (s.pc + 2#5))

/-- What a format A opcode does in cell 15, where it has no operand cell: under `fault` the fault of R121, with nothing
changed but ip and status; under `readZero` the instruction with operand 0 and ip at 17 (R122). -/
def lastCellRule (opcode : Nibble) (withOperand0 : Instr) : Prop :=
  ∀ s : State, s.standsAt opcode → s.pc = 15#5 →
    (s.oobPolicy = .fault → step s = .next { s with pc := 16#5, status := .faulted }) ∧
    (s.oobPolicy = .readZero → step s = exec withOperand0 { s with pc := 17#5 })

end Sys2Proof.Machine
end

