-- ==== Sys2Proof/WellFormed.lean ====
section
/-! DEFINITION. The well-formedness of an instruction AT AN ADDRESS. The range of an operand is no check: an operand is a
4-bit value by type and every such value is legal (R53, R56). What can be wrong is the place: the cells an instruction is
made of must exist (R30, R53). -/

namespace Sys2Proof

/-- The opcode stands in a cell of memory (R30: addresses 0 to 15). -/
def Instr.opcodeCellExists (addr : Nat) : Bool := decide (addr < Config.memCells)

/-- Where the instruction has an operand cell, that cell exists (R53: an opcode in cell 15 has no cell after it). -/
def Instr.operandCellExists (i : Instr) (addr : Nat) : Bool :=
  decide (i.lengthCells = 1) || decide (addr + 1 < Config.memCells)

/-- The instruction is well-formed at the address: both checks hold. -/
def Instr.wellFormedAt (i : Instr) (addr : Nat) : Bool :=
  Instr.opcodeCellExists addr && i.operandCellExists addr

end Sys2Proof
end

