-- ==== Sys2Proof/Certificates/Slice0/Obligations.lean ====
section
/-! DEFINITION. The statements for the provers. Those about one instruction say its encoding and its effect on every state,
with its frame; `exec` is given the state the fetch has left (R72), so that ip there is already past the instruction. -/

open Sys2Proof Sys2Proof.Machine Sys2Proof.Config

/-! ### Encoding -/

/-- Decoding and encoding are inverse to each other on every list of cells (R50 to R56). -/
def Obligations.DecodeAndEncodeAreInverse : Prop :=
  ∀ (cells rest : List Nibble) (i : Instr), decode cells = .ok (i, rest) ↔ cells = encode i ++ rest

/-- Decoding is total: an opcode below 8 decodes alone, an opcode of 8 or more with any operand, and the two lists without a
whole instruction are rejected by name (R56). -/
def Obligations.EveryOpcodeAndOperandDecodes : Prop :=
  (∀ (opcode : Nibble) (rest : List Nibble), opcode.toNat < 8 → ∃ i, decode (opcode :: rest) = .ok (i, rest)) ∧
  (∀ (opcode operand : Nibble) (rest : List Nibble), 8 ≤ opcode.toNat →
    ∃ i, decode (opcode :: operand :: rest) = .ok (i, rest)) ∧
  (∀ opcode : Nibble, 8 ≤ opcode.toNat → decode [opcode] = .error (.noOperandCell opcode)) ∧
  decode [] = .error .noOpcodeCell

/-- A few words of the opcode map decode to the instructions they stand for (R54). -/
def Obligations.SampleWordsDecode : Prop :=
  decode [0b0000#4, 9#4] = .ok (.halt, [9#4]) ∧ decode [0b0010#4] = .ok (.sub, []) ∧
  decode [0b0110#4] = .ok (.dec1, []) ∧ decode [0b1000#4, 13#4] = .ok (.print 13#4, []) ∧
  decode [0b1010#4, 15#4] = .ok (.load1 15#4, []) ∧ decode [0b1100#4, 4#4] = .ok (.store1 4#4, []) ∧
  decode [0b1110#4, 9#4] = .ok (.jz 9#4, [])

/-- A word of the opcode table, stored where the next step fetches, is run by that step, from any state with room for it. -/
def Obligations.TableWordStoredAtPcIsRun : Prop :=
  ∀ (s : State) (nbits w : Nat) (i : Instr), s.pc.toNat ≤ 14 → decodeTableWord nbits w = some i →
    step (s.withFetchWord nbits w) =
      exec i ((s.withFetchWord nbits w).setPc (s.pc + BitVec.ofNat 5 i.lengthCells))

/-! ### The step -/

/-- Where the cells from ip on decode to an instruction, the step is that instruction's effect with ip past its cells
(R70, R72). -/
def Obligations.StepRunsTheDecodedInstruction : Prop :=
  ∀ (s : State) (i : Instr) (rest : List Nibble), s.status = .running →
    decode (s.cellsFrom s.pc.toNat) = .ok (i, rest) →
    i.wellFormedAt s.pc.toNat = true ∧ step s = exec i (s.setPc (s.pc + BitVec.ofNat 5 i.lengthCells))

/-- An instruction whose encoding stands in memory at ip, in place for it, is what the step runs. -/
def Obligations.EncodedInstructionInMemoryIsRun : Prop :=
  ∀ (s : State) (i : Instr), s.status = .running → i.wellFormedAt s.pc.toNat = true →
    (∀ (k : Nat) (v : Nibble), (encode i)[k]? = some v → s.mem.readCell (s.pc.toNat + k) = v) →
    step s = exec i (s.setPc (s.pc + BitVec.ofNat 5 i.lengthCells))

/-- The implicit halt: with ip above 15 the step reads nothing, changes nothing but status, and leaves ip as it is (R71). -/
def Obligations.ImplicitHaltAboveCell15 : Prop :=
  ∀ s : State, s.status = .running → 16 ≤ s.pc.toNat → step s = .next { s with status := .halted }

/-- How every step moves ip, and which steps end the run: the whole table of R14. -/
def Obligations.IpAfterEveryStep : Prop :=
  ∀ s : State, s.status = .running → ∃ t, step s = .next t ∧
    (16 ≤ s.pc.toNat → t.pc = s.pc ∧ t.status = .halted) ∧
    (s.pc.toNat ≤ 15 → s.opcodeAtPc = 0#4 → t.pc.toNat = s.pc.toNat + 1 ∧ t.status = .halted) ∧
    (s.pc.toNat ≤ 15 → 1 ≤ s.opcodeAtPc.toNat → s.opcodeAtPc.toNat ≤ 7 →
      t.pc.toNat = s.pc.toNat + 1 ∧ t.status = .running) ∧
    (s.pc.toNat ≤ 14 → 8 ≤ s.opcodeAtPc.toNat → s.opcodeAtPc.toNat ≤ 12 →
      t.pc.toNat = s.pc.toNat + 2 ∧ t.status = .running) ∧
    (s.pc.toNat ≤ 14 → s.opcodeAtPc = 13#4 → t.pc.toNat = s.operandAtPc.toNat ∧ t.status = .running) ∧
    (s.pc.toNat ≤ 14 → s.opcodeAtPc = 14#4 →
      t.pc.toNat = (if s.r0 = 0#4 then s.operandAtPc.toNat else s.pc.toNat + 2) ∧ t.status = .running) ∧
    (s.pc.toNat ≤ 14 → s.opcodeAtPc = 15#4 →
      t.pc.toNat = (if s.r0 ≠ 0#4 then s.operandAtPc.toNat else s.pc.toNat + 2) ∧ t.status = .running) ∧
    (s.pc.toNat = 15 → 8 ≤ s.opcodeAtPc.toNat → s.oobPolicy = .fault → t.pc.toNat = 16 ∧ t.status = .faulted) ∧
    (s.pc.toNat = 15 → 8 ≤ s.opcodeAtPc.toNat → s.oobPolicy = .readZero → t.status = .running ∧
      t.pc.toNat = (if s.opcodeAtPc.toNat ≤ 12 then 17 else
        if s.opcodeAtPc = 13#4 ∨ (s.opcodeAtPc = 14#4 ∧ s.r0 = 0#4) ∨ (s.opcodeAtPc = 15#4 ∧ s.r0 ≠ 0#4)
        then 0 else 17))

/-- The fault: an opcode of 8 or more in cell 15 under the policy `fault`, whatever the instruction and whatever r0 holds,
sets FAULTED and leaves ip at 16 and everything else as it was (R121). The second clause, that the FAULTED state has no
next state, is R121's "no further step is taken" in the model's form, in which a step of a FAULTED state answers the fault
outcome: a DESIGN CHOICE, log entry 4. That nothing else sets FAULTED is `RunEndsOnlyByOpcodeZeroOrFault`. -/
def Obligations.OperandFetchBeyondMemoryFaults : Prop :=
  ∀ s : State, s.status = .running → s.pc.toNat = 15 → 8 ≤ s.opcodeAtPc.toNat → s.oobPolicy = .fault →
    step s = .next { s with pc := 16#5, status := .faulted } ∧
    ∀ t, step s = .next t → ∀ u, step t ≠ .next u

/-- The alternative policy: the same fetch gives operand 0 and ip 17, and each of the eight instructions has its effect with
that operand (R122). -/
def Obligations.OperandFetchBeyondMemoryReadsZero : Prop :=
  ∀ s : State, s.status = .running → s.pc.toNat = 15 → s.oobPolicy = .readZero →
    (s.opcodeAtPc = 8#4 → step s = .next { s with pc := 17#5, trace := s.trace ++ [.print 0#4] }) ∧
    (s.opcodeAtPc = 9#4 → step s = .next { s with pc := 17#5, r0 := s.mem.readCell 0 }) ∧
    (s.opcodeAtPc = 10#4 → step s = .next { s with pc := 17#5, r1 := s.mem.readCell 0 }) ∧
    (s.opcodeAtPc = 11#4 → step s = .next { s with pc := 17#5, mem := s.mem.writeCell 0 s.r0 }) ∧
    (s.opcodeAtPc = 12#4 → step s = .next { s with pc := 17#5, mem := s.mem.writeCell 0 s.r1 }) ∧
    (s.opcodeAtPc = 13#4 → step s = .next { s with pc := 0#5 }) ∧
    (s.opcodeAtPc = 14#4 → step s = .next { s with pc := if s.r0 = 0#4 then 0#5 else 17#5 }) ∧
    (s.opcodeAtPc = 15#4 → step s = .next { s with pc := if s.r0 ≠ 0#4 then 0#5 else 17#5 })

/-- A step ends the run normally exactly when it executes opcode 0, fetched or implicit, and abnormally exactly when the
fault of R121 fires; otherwise the block stays RUNNING (R154, R75). -/
def Obligations.RunEndsOnlyByOpcodeZeroOrFault : Prop :=
  ∀ s t : State, s.status = .running → step s = .next t →
    (t.status = .halted ↔ 16 ≤ s.pc.toNat ∨ s.opcodeAtPc = 0#4) ∧
    (t.status = .faulted ↔ s.pc.toNat = 15 ∧ 8 ≤ s.opcodeAtPc.toNat ∧ s.oobPolicy = .fault)

/-- HALTED and FAULTED change nothing: any number of steps of the machine from HALTED gives the same state, and FAULTED has
no next state at all. The model's reading of "no step exists" (R77, R19) is log entries 3 and 4. -/
def Obligations.StoppedBlockChangesNothing : Prop :=
  (∀ (s : State) (n : Nat), s.status = .halted → Host.Core.run Sys2Proof.core n s = .next s) ∧
  (∀ s : State, s.status = .faulted → step s = .fault (.operandFetchOutOfRange s.pc))

/-- Only the instructions that R11 lists as its writers change a register. -/
def Obligations.RegistersHaveTheListedWriters : Prop :=
  ∀ s t : State, step s = .next t →
    (t.r0 ≠ s.r0 → s.status = .running ∧ s.pc.toNat ≤ 15 ∧
      s.opcodeAtPc ∈ [1#4, 2#4, 3#4, 5#4, 9#4]) ∧
    (t.r1 ≠ s.r1 → s.status = .running ∧ s.pc.toNat ≤ 15 ∧ s.opcodeAtPc ∈ [4#4, 6#4, 10#4])

/-- After a step every cell reads as before it, but the one cell a STORE0 or STORE1 names, which reads as the register: a
read gives the most recent write (R31, R35, R39). -/
def Obligations.MemoryIsWrittenByStoresOnly : Prop :=
  ∀ s t : State, step s = .next t → ∀ addr : Nat,
    t.mem.readCell addr =
      (if s.status = .running ∧ (s.opcodeAtPc = 11#4 ∨ s.opcodeAtPc = 12#4) ∧
          ((s.pc.toNat ≤ 14 ∧ addr = s.operandAtPc.toNat) ∨
           (s.pc.toNat = 15 ∧ s.oobPolicy = .readZero ∧ addr = 0))
        then (if s.opcodeAtPc = 11#4 then s.r0 else s.r1)
        else s.mem.readCell addr)

/-- The trace grows by exactly the event of the BELL or PRINT a step executes; no other step emits, a faulting step and a
HALT among them (R92). -/
def Obligations.OnlyBellAndPrintEmit : Prop :=
  ∀ s t : State, step s = .next t →
    t.trace = s.trace ++
      (if s.status = .running ∧ s.pc.toNat ≤ 15 ∧ s.opcodeAtPc = 7#4 then [.bell]
       else if s.status = .running ∧ s.pc.toNat ≤ 14 ∧ s.opcodeAtPc = 8#4 then [.print s.operandAtPc]
       else if s.status = .running ∧ s.pc.toNat = 15 ∧ s.opcodeAtPc = 8#4 ∧ s.oobPolicy = .readZero
         then [.print 0#4]
       else [])

/-- A store to the opcode cell or the operand cell of the next instruction in line is what the very next step executes
(R41). -/
def Obligations.NextStepRunsWhatAStoreWrote : Prop :=
  ∀ (s : State) (r : Reg), s.standsAt (match r with | .r0 => 11#4 | .r1 => 12#4) →
    (s.pc.toNat ≤ 13 → s.operandAtPc.toNat = s.pc.toNat + 2 → (s.readReg r).toNat < 8 →
      ∃ t, step s = .next t ∧ t.pc.toNat = s.pc.toNat + 2 ∧
        step t = exec (decodeCells (s.readReg r) 0#4) (t.setPc (s.pc + 3#5))) ∧
    (s.pc.toNat ≤ 12 → s.operandAtPc.toNat = s.pc.toNat + 2 → 8 ≤ (s.readReg r).toNat →
      ∃ t, step s = .next t ∧ t.pc.toNat = s.pc.toNat + 2 ∧
        step t = exec (decodeCells (s.readReg r) (s.mem.readCell (s.pc.toNat + 3))) (t.setPc (s.pc + 4#5))) ∧
    (s.pc.toNat ≤ 12 → s.operandAtPc.toNat = s.pc.toNat + 3 → 8 ≤ (s.mem.readCell (s.pc.toNat + 2)).toNat →
      ∃ t, step s = .next t ∧ t.pc.toNat = s.pc.toNat + 2 ∧
        step t = exec (decodeCells (s.mem.readCell (s.pc.toNat + 2)) (s.readReg r)) (t.setPc (s.pc + 4#5)))

/-- A STORE whose address is its own opcode cell or its own operand cell completes as fetched, and the new content is what
that cell then reads (R42). -/
def Obligations.StoreToItselfCompletesAsFetched : Prop :=
  ∀ (s : State) (r : Reg), s.standsAt (match r with | .r0 => 11#4 | .r1 => 12#4) → s.pc.toNat ≤ 14 →
    (s.operandAtPc.toNat = s.pc.toNat ∨ s.operandAtPc.toNat = s.pc.toNat + 1) →
    ∃ t, step s = .next t ∧ t = { s with mem := t.mem, pc := s.pc + 2#5 } ∧
      t.mem.readCell s.operandAtPc.toNat = s.readReg r ∧ State.sameCellsBut s.operandAtPc.toNat s t

/-- Under `readZero` the block has no fault: from any state that is not FAULTED, every run of any length answers a next
state, and FAULTED is never reached (R122). From a HALTED state on, where the spec has no step (R77), the run goes on by the
model's own form, in which HALTED is held: a DESIGN CHOICE, log entry 3, so the length n counts steps of the model. -/
def Obligations.ReadZeroMachineNeverFaults : Prop :=
  ∀ (s : State) (n : Nat), s.oobPolicy = .readZero → s.Safe →
    ∃ t, Host.Core.run Sys2Proof.core n s = .next t ∧ t.Safe ∧ t.oobPolicy = .readZero

/-- No step changes the policy the machine is built with. -/
def Obligations.StepKeepsThePolicy : Prop :=
  ∀ s t : State, step s = .next t → t.oobPolicy = s.oobPolicy

/-! ### The invariant of the state -/

/-- Every step keeps the invariant: canonical memory, ip at most 17 and at most 16 under `fault`, FAULTED only with ip 16
under `fault` (R24, R15). -/
def Obligations.StepKeepsInv : Prop := ∀ s t : State, s.Inv → step s = .next t → t.Inv

/-- The invariant holds at reset. -/
def Obligations.InvAtReset : Prop := State.reset.Inv

/-- The invariant holds right after reset with every image, under both policies. -/
def Obligations.InvAfterResetWithAnyImage : Prop := ∀ (p : OobOperandPolicy) (image : Image), (State.resetWith p image).Inv

/-- Two canonical memories whose cells all read the same are the same data: the form is canonical (the model's own form,
log entry 2). -/
def Obligations.CanonicalMemoriesAreEqualData : Prop :=
  ∀ m n : Memory, m.wf = true → n.wf = true → (∀ addr : Nat, m.readCell addr = n.readCell addr) → m = n

/-! ### Reset -/

/-- What reset leaves: both registers and ip 0, RUNNING, the empty trace, and every cell as the image has it, under either
policy; and it is the same from any state of the same machine (R23, R140, R142). -/
def Obligations.ResetLeavesTheStatedValues : Prop :=
  ∀ (s : State) (image : Image),
    (s.applyReset image).r0 = 0#4 ∧ (s.applyReset image).r1 = 0#4 ∧ (s.applyReset image).pc = 0#5 ∧
    (s.applyReset image).status = .running ∧ (s.applyReset image).trace = [] ∧
    (∀ (k : Nat) (h : k < 16), (s.applyReset image).mem.readCell k = image[k]) ∧
    ∀ s' : State, s'.oobPolicy = s.oobPolicy → s'.applyReset image = s.applyReset image

/-- `State.reset` is the reset state of the all-zero image under the policy `fault`: the model's choice of the image and of
the policy (log entries 1 and 9). -/
def Obligations.ResetIsTheAllZeroImage : Prop :=
  State.reset = State.resetWith .fault (Vector.replicate 16 0#4) ∧
    ∀ addr : Nat, State.reset.mem.readCell addr = 0#4

/-- The first step after reset is always taken, whatever the image holds (R141, R75). -/
def Obligations.FirstStepAfterResetIsTaken : Prop :=
  ∀ (p : OobOperandPolicy) (image : Image), ∃ t, step (State.resetWith p image) = .next t ∧
    (t.status = .halted ↔ image[0] = 0#4) ∧ t.status ≠ .faulted

/-! ### The instructions -/

/-- HALT (R74): its encoding, and its effect is the run status alone. -/
def Obligations.HaltStopsTheRun : Prop :=
  oneCellRule 0#4 .halt ∧
  (∀ rest, decode (0b0000#4 :: rest) = .ok (.halt, rest)) ∧
  ∀ s : State, ∃ t, exec .halt s = .next t ∧ t.status = .halted ∧
    t = { s with status := t.status } ∧ State.sameCells s t

/-- ADD (R81). -/
def Obligations.AddResult : Prop :=
  oneCellRule 1#4 .add ∧
  (∀ rest, decode (0b0001#4 :: rest) = .ok (.add, rest)) ∧
  ∀ s : State, ∃ t, exec .add s = .next t ∧ t.r0.toNat = (s.r0.toNat + s.r1.toNat) % 16 ∧
    t = { s with r0 := t.r0 } ∧ State.sameCells s t

/-- SUB (R82): the non-negative residue of an exact difference that may be negative. -/
def Obligations.SubResult : Prop :=
  oneCellRule 2#4 .sub ∧
  (∀ rest, decode (0b0010#4 :: rest) = .ok (.sub, rest)) ∧
  ∀ s : State, ∃ t, exec .sub s = .next t ∧ (t.r0.toNat : Int) = ((s.r0.toNat : Int) - (s.r1.toNat : Int)) % 16 ∧
    t = { s with r0 := t.r0 } ∧ State.sameCells s t

/-- INC0 and INC1 (R83, R84): 15 gives 0. -/
def Obligations.IncrementResults : Prop :=
  oneCellRule 3#4 .inc0 ∧ oneCellRule 4#4 .inc1 ∧
  (∀ rest, decode (0b0011#4 :: rest) = .ok (.inc0, rest) ∧ decode (0b0100#4 :: rest) = .ok (.inc1, rest)) ∧
  (∀ s : State, ∃ t, exec .inc0 s = .next t ∧ t.r0.toNat = (s.r0.toNat + 1) % 16 ∧
    t = { s with r0 := t.r0 } ∧ State.sameCells s t) ∧
  (∀ s : State, ∃ t, exec .inc1 s = .next t ∧ t.r1.toNat = (s.r1.toNat + 1) % 16 ∧
    t = { s with r1 := t.r1 } ∧ State.sameCells s t)

/-- DEC0 and DEC1 (R85, R86): 0 gives 15, never a negative number. -/
def Obligations.DecrementResults : Prop :=
  oneCellRule 5#4 .dec0 ∧ oneCellRule 6#4 .dec1 ∧
  (∀ rest, decode (0b0101#4 :: rest) = .ok (.dec0, rest) ∧ decode (0b0110#4 :: rest) = .ok (.dec1, rest)) ∧
  (∀ s : State, ∃ t, exec .dec0 s = .next t ∧ (t.r0.toNat : Int) = ((s.r0.toNat : Int) - 1) % 16 ∧
    t = { s with r0 := t.r0 } ∧ State.sameCells s t) ∧
  (∀ s : State, ∃ t, exec .dec1 s = .next t ∧ (t.r1.toNat : Int) = ((s.r1.toNat : Int) - 1) % 16 ∧
    t = { s with r1 := t.r1 } ∧ State.sameCells s t)

/-- Arithmetic agrees with a 4-bit adder and subtractor that lose carry and borrow (R88). -/
def Obligations.ResidueIsFourBitArithmetic : Prop :=
  ∀ p q : Nibble, residue ((p.toNat : Int) + q.toNat) = p + q ∧
    residue ((p.toNat : Int) - q.toNat) = p - q ∧ residue ((p.toNat : Int) - q.toNat) = p + ~~~q + 1#4 ∧
    residue ((p.toNat : Int) - q.toNat) = residue ((p.toNat : Int) + (16 - q.toNat))

/-- BELL (R90). -/
def Obligations.BellEmitsOneBell : Prop :=
  oneCellRule 7#4 .bell ∧
  (∀ rest, decode (0b0111#4 :: rest) = .ok (.bell, rest)) ∧
  ∀ s : State, ∃ t, exec .bell s = .next t ∧ t.trace = s.trace ++ [.bell] ∧
    t = { s with trace := t.trace } ∧ State.sameCells s t

/-- PRINT (R91): the operand itself is printed; in cell 15 it faults, or prints 0. -/
def Obligations.PrintEmitsItsOperand : Prop :=
  twoCellRule 8#4 .print ∧
  (∀ v rest, decode (0b1000#4 :: v :: rest) = .ok (.print v, rest)) ∧
  (∀ (s : State) (v : Nibble), ∃ t, exec (.print v) s = .next t ∧ t.trace = s.trace ++ [.print v] ∧
    t = { s with trace := t.trace } ∧ State.sameCells s t) ∧
  lastCellRule 8#4 (.print 0#4)

/-- LOAD0 and LOAD1 (R101, R102): the register becomes the cell's content at that moment. -/
def Obligations.LoadResults : Prop :=
  twoCellRule 9#4 .load0 ∧ twoCellRule 10#4 .load1 ∧
  (∀ a rest, decode (0b1001#4 :: a :: rest) = .ok (.load0 a, rest) ∧
    decode (0b1010#4 :: a :: rest) = .ok (.load1 a, rest)) ∧
  (∀ (s : State) (a : Nibble), ∃ t, exec (.load0 a) s = .next t ∧ t.r0 = s.mem.readCell (effectiveAddress a).toNat ∧
    t = { s with r0 := t.r0 } ∧ State.sameCells s t) ∧
  (∀ (s : State) (a : Nibble), ∃ t, exec (.load1 a) s = .next t ∧ t.r1 = s.mem.readCell (effectiveAddress a).toNat ∧
    t = { s with r1 := t.r1 } ∧ State.sameCells s t) ∧
  lastCellRule 9#4 (.load0 0#4) ∧ lastCellRule 10#4 (.load1 0#4)

/-- STORE0 and STORE1 (R103, R104): the one cell the operand names becomes the register; every other cell, both registers,
ip, status and the trace are unchanged, and the memory stays canonical. -/
def Obligations.StoreResults : Prop :=
  twoCellRule 11#4 .store0 ∧ twoCellRule 12#4 .store1 ∧
  (∀ a rest, decode (0b1011#4 :: a :: rest) = .ok (.store0 a, rest) ∧
    decode (0b1100#4 :: a :: rest) = .ok (.store1 a, rest)) ∧
  (∀ (s : State) (a : Nibble), ∃ t, exec (.store0 a) s = .next t ∧ t.mem.readCell (effectiveAddress a).toNat = s.r0 ∧
    t = { s with mem := t.mem } ∧ State.sameCellsBut (effectiveAddress a).toNat s t ∧
    (s.mem.wf = true → t.mem.wf = true)) ∧
  (∀ (s : State) (a : Nibble), ∃ t, exec (.store1 a) s = .next t ∧ t.mem.readCell (effectiveAddress a).toNat = s.r1 ∧
    t = { s with mem := t.mem } ∧ State.sameCellsBut (effectiveAddress a).toNat s t ∧
    (s.mem.wf = true → t.mem.wf = true)) ∧
  lastCellRule 11#4 (.store0 0#4) ∧ lastCellRule 12#4 (.store1 0#4)

/-- JMP (R111): the target is absolute and replaces ip. -/
def Obligations.JmpSetsIp : Prop :=
  twoCellRule 13#4 .jmp ∧
  (∀ a rest, decode (0b1101#4 :: a :: rest) = .ok (.jmp a, rest)) ∧
  (∀ (s : State) (a : Nibble), ∃ t, exec (.jmp a) s = .next t ∧ t.pc.toNat = a.toNat ∧
    t = { s with pc := t.pc } ∧ State.sameCells s t) ∧
  lastCellRule 13#4 (.jmp 0#4)

/-- JZ (R112): the test is on r0; ip keeps the fall-through address where the jump is not taken. -/
def Obligations.JzJumpsWhenR0IsZero : Prop :=
  twoCellRule 14#4 .jz ∧
  (∀ a rest, decode (0b1110#4 :: a :: rest) = .ok (.jz a, rest)) ∧
  (∀ (s : State) (a : Nibble), ∃ t, exec (.jz a) s = .next t ∧
    t.pc.toNat = (if s.r0 = 0#4 then a.toNat else s.pc.toNat) ∧ t = { s with pc := t.pc } ∧ State.sameCells s t) ∧
  lastCellRule 14#4 (.jz 0#4)

/-- JNZ (R113): the test of JZ inverted, so that exactly one of the two is taken. -/
def Obligations.JnzJumpsWhenR0IsNotZero : Prop :=
  twoCellRule 15#4 .jnz ∧
  (∀ a rest, decode (0b1111#4 :: a :: rest) = .ok (.jnz a, rest)) ∧
  (∀ (s : State) (a : Nibble), ∃ t, exec (.jnz a) s = .next t ∧
    t.pc.toNat = (if s.r0 ≠ 0#4 then a.toNat else s.pc.toNat) ∧ t = { s with pc := t.pc } ∧ State.sameCells s t) ∧
  lastCellRule 15#4 (.jnz 0#4)

/-! ### The host beside the block (rules the spec marks "host") -/

/-- The program text that writes tokens as decimal numerals with a space after each (R61). -/
def textOfTokens (tokens : List Nibble) : List Char := tokens.flatMap fun v => decimalNumeral v ++ [' ']

/-- Where the Loader succeeds, the image is the tokens zero-padded; a text of at most sixteen numerals gives those tokens;
every image is given by sixteen of them; and the empty text gives the all-zero image, which halts at its first step
(R150). -/
def Obligations.LoaderBuildsEveryImage : Prop :=
  (∀ (text : List Char) (tokens : List Nibble), loadTokens text = .ok tokens → ∃ image : Image,
    loadImage text = .ok image ∧ ∀ (k : Nat) (h : k < 16), image[k] = tokens.getD k 0#4) ∧
  (∀ tokens : List Nibble, tokens.length ≤ 16 → loadTokens (textOfTokens tokens) = .ok tokens) ∧
  (∀ image : Image, loadImage (textOfTokens image.toList) = .ok image) ∧
  ∀ p : OobOperandPolicy, ∃ image : Image, loadImage [] = .ok image ∧ image = Vector.replicate 16 0#4 ∧
    step (State.resetWith p image) = .next { State.resetWith p image with pc := 1#5, status := .halted }

/-- A 17th token fails with ProgramTooLarge whatever its value, and whatever stands after it (R145). -/
def Obligations.SeventeenthTokenIsProgramTooLarge : Prop :=
  ∀ (tokens : List Nibble) (digits rest : List Char), tokens.length = 16 → digits ≠ [] →
    (∀ c ∈ digits, isDigit c = true) → (∀ c ∈ rest.head?, isDigit c = false) →
    loadTokens (textOfTokens tokens ++ digits ++ rest) = .error .programTooLarge

/-- The Loader, on every text: at most sixteen tokens, and no error but the two that a token's count and value can cause;
NegativeInstruction is unreachable (R145). -/
def Obligations.LoaderErrorsOnEveryText : Prop :=
  ∀ text : List Char, (∃ tokens, loadTokens text = .ok tokens ∧ tokens.length ≤ 16) ∨
    loadTokens text = .error .programTooLarge ∨ loadTokens text = .error .instructionTooLarge

/-- Trailing separators add nothing, and the end of the stream flushes a pending token (R147). -/
def Obligations.TrailingSeparatorsAddNothing : Prop :=
  ∀ text separators : List Char, (∀ c ∈ separators, isDigit c = false) →
    loadTokens (text ++ separators) = loadTokens text

/-- The numeral of a value 0 to 15 is one or two digits, with no leading zero, that read back as the value; a PRINT event
is written as it and one space (R93). -/
def Obligations.PrintedNumeralReadsBack : Prop :=
  ∀ v : Nibble, tokenValue (decimalNumeral v) = v.toNat ∧
    (decimalNumeral v).length = (if v.toNat < 10 then 1 else 2) ∧ (∀ c ∈ decimalNumeral v, isDigit c = true) ∧
    ∀ bell, renderEvent bell (.print v) = decimalNumeral v ++ [' ']

/-- The result of an invocation, as a whole observation in each case: a Loader error gives exit code 1 and an empty standard
output; a run that halts gives the text of its trace, one newline and exit code 0; a run that has not ended gives the text of
its trace so far and no exit code (R156); a run past a fault gives the text of the trace the FAULTED block holds, and neither
the newline nor an exit code (R126; that no exit code is observed is the model's choice, log entry 13). -/
def Obligations.InvocationResult : Prop :=
  ∀ (bell : BellRendering) (p : OobOperandPolicy) (args : List (Option (List Char))) (stdin : List Char) (fuel : Nat),
    (∀ e, loadInvocation args stdin = .error e →
      invoke bell p args stdin fuel = { stdout := [], exitCode := some 1, loadError := some e }) ∧
    (∀ (image : Image) (t : State), loadInvocation args stdin = .ok image →
      Host.Core.run Sys2Proof.core fuel (State.resetWith p image) = .next t →
      invoke bell p args stdin fuel =
        (if t.status = .halted
          then { stdout := renderTrace bell t.trace ++ ['\n'], exitCode := some 0, loadError := none }
          else { stdout := renderTrace bell t.trace, exitCode := none, loadError := none })) ∧
    (∀ (image : Image) (f : Fault), loadInvocation args stdin = .ok image →
      Host.Core.run Sys2Proof.core fuel (State.resetWith p image) = .fault f →
      (runFor fuel (State.resetWith p image)).status = .faulted ∧
      invoke bell p args stdin fuel =
        { stdout := renderTrace bell (runFor fuel (State.resetWith p image)).trace, exitCode := none, loadError := none })
end

