-- ==== Sys2Proof/Laws/State.lean ====
section
/-! SUPPORT. One lemma per field per update of State, true by unfolding, so that no later proof unfolds a record update. -/

namespace Sys2Proof.Machine

@[simp] theorem State.setPc_r0 (s : State) (t : Pc) : (s.setPc t).r0 = s.r0 := rfl
@[simp] theorem State.setPc_r1 (s : State) (t : Pc) : (s.setPc t).r1 = s.r1 := rfl
@[simp] theorem State.setPc_pc (s : State) (t : Pc) : (s.setPc t).pc = t := rfl
@[simp] theorem State.setPc_status (s : State) (t : Pc) : (s.setPc t).status = s.status := rfl
@[simp] theorem State.setPc_mem (s : State) (t : Pc) : (s.setPc t).mem = s.mem := rfl
@[simp] theorem State.setPc_trace (s : State) (t : Pc) : (s.setPc t).trace = s.trace := rfl
@[simp] theorem State.setPc_oobPolicy (s : State) (t : Pc) : (s.setPc t).oobPolicy = s.oobPolicy := rfl

@[simp] theorem State.advancePc_r0 (s : State) : s.advancePc.r0 = s.r0 := rfl
@[simp] theorem State.advancePc_r1 (s : State) : s.advancePc.r1 = s.r1 := rfl
@[simp] theorem State.advancePc_pc (s : State) : s.advancePc.pc = s.pc + 1#5 := rfl
@[simp] theorem State.advancePc_status (s : State) : s.advancePc.status = s.status := rfl
@[simp] theorem State.advancePc_mem (s : State) : s.advancePc.mem = s.mem := rfl
@[simp] theorem State.advancePc_trace (s : State) : s.advancePc.trace = s.trace := rfl
@[simp] theorem State.advancePc_oobPolicy (s : State) : s.advancePc.oobPolicy = s.oobPolicy := rfl

@[simp] theorem State.emit_r0 (s : State) (e : Event) : (s.emit e).r0 = s.r0 := rfl
@[simp] theorem State.emit_r1 (s : State) (e : Event) : (s.emit e).r1 = s.r1 := rfl
@[simp] theorem State.emit_pc (s : State) (e : Event) : (s.emit e).pc = s.pc := rfl
@[simp] theorem State.emit_status (s : State) (e : Event) : (s.emit e).status = s.status := rfl
@[simp] theorem State.emit_mem (s : State) (e : Event) : (s.emit e).mem = s.mem := rfl
@[simp] theorem State.emit_trace (s : State) (e : Event) : (s.emit e).trace = s.trace ++ [e] := rfl
@[simp] theorem State.emit_oobPolicy (s : State) (e : Event) : (s.emit e).oobPolicy = s.oobPolicy := rfl

@[simp] theorem State.setStatus_r0 (s : State) (st : RunStatus) : (s.setStatus st).r0 = s.r0 := rfl
@[simp] theorem State.setStatus_r1 (s : State) (st : RunStatus) : (s.setStatus st).r1 = s.r1 := rfl
@[simp] theorem State.setStatus_pc (s : State) (st : RunStatus) : (s.setStatus st).pc = s.pc := rfl
@[simp] theorem State.setStatus_status (s : State) (st : RunStatus) : (s.setStatus st).status = st := rfl
@[simp] theorem State.setStatus_mem (s : State) (st : RunStatus) : (s.setStatus st).mem = s.mem := rfl
@[simp] theorem State.setStatus_trace (s : State) (st : RunStatus) : (s.setStatus st).trace = s.trace := rfl
@[simp] theorem State.setStatus_oobPolicy (s : State) (st : RunStatus) : (s.setStatus st).oobPolicy = s.oobPolicy := rfl

@[simp] theorem State.raiseOperandFetchOutOfRange_r0 (s : State) : s.raiseOperandFetchOutOfRange.r0 = s.r0 := rfl
@[simp] theorem State.raiseOperandFetchOutOfRange_r1 (s : State) : s.raiseOperandFetchOutOfRange.r1 = s.r1 := rfl
@[simp] theorem State.raiseOperandFetchOutOfRange_pc (s : State) : s.raiseOperandFetchOutOfRange.pc = s.pc := rfl
@[simp] theorem State.raiseOperandFetchOutOfRange_status (s : State) : s.raiseOperandFetchOutOfRange.status = .faulted := rfl
@[simp] theorem State.raiseOperandFetchOutOfRange_mem (s : State) : s.raiseOperandFetchOutOfRange.mem = s.mem := rfl
@[simp] theorem State.raiseOperandFetchOutOfRange_trace (s : State) : s.raiseOperandFetchOutOfRange.trace = s.trace := rfl
@[simp] theorem State.raiseOperandFetchOutOfRange_oobPolicy (s : State) : s.raiseOperandFetchOutOfRange.oobPolicy = s.oobPolicy := rfl

@[simp] theorem State.memWrite_r0 (s : State) (addr value : Nibble) : (s.memWrite addr value).r0 = s.r0 := rfl
@[simp] theorem State.memWrite_r1 (s : State) (addr value : Nibble) : (s.memWrite addr value).r1 = s.r1 := rfl
@[simp] theorem State.memWrite_pc (s : State) (addr value : Nibble) : (s.memWrite addr value).pc = s.pc := rfl
@[simp] theorem State.memWrite_status (s : State) (addr value : Nibble) : (s.memWrite addr value).status = s.status := rfl
@[simp] theorem State.memWrite_mem (s : State) (addr value : Nibble) : (s.memWrite addr value).mem = s.mem.writeCell addr.toNat value := rfl
@[simp] theorem State.memWrite_trace (s : State) (addr value : Nibble) : (s.memWrite addr value).trace = s.trace := rfl
@[simp] theorem State.memWrite_oobPolicy (s : State) (addr value : Nibble) : (s.memWrite addr value).oobPolicy = s.oobPolicy := rfl

@[simp] theorem State.writeReg_r0_r0 (s : State) (value : Nibble) : (s.writeReg .r0 value).r0 = value := rfl
@[simp] theorem State.writeReg_r0_r1 (s : State) (value : Nibble) : (s.writeReg .r0 value).r1 = s.r1 := rfl
@[simp] theorem State.writeReg_r0_pc (s : State) (value : Nibble) : (s.writeReg .r0 value).pc = s.pc := rfl
@[simp] theorem State.writeReg_r0_status (s : State) (value : Nibble) : (s.writeReg .r0 value).status = s.status := rfl
@[simp] theorem State.writeReg_r0_mem (s : State) (value : Nibble) : (s.writeReg .r0 value).mem = s.mem := rfl
@[simp] theorem State.writeReg_r0_trace (s : State) (value : Nibble) : (s.writeReg .r0 value).trace = s.trace := rfl
@[simp] theorem State.writeReg_r0_oobPolicy (s : State) (value : Nibble) : (s.writeReg .r0 value).oobPolicy = s.oobPolicy := rfl

@[simp] theorem State.writeReg_r1_r0 (s : State) (value : Nibble) : (s.writeReg .r1 value).r0 = s.r0 := rfl
@[simp] theorem State.writeReg_r1_r1 (s : State) (value : Nibble) : (s.writeReg .r1 value).r1 = value := rfl
@[simp] theorem State.writeReg_r1_pc (s : State) (value : Nibble) : (s.writeReg .r1 value).pc = s.pc := rfl
@[simp] theorem State.writeReg_r1_status (s : State) (value : Nibble) : (s.writeReg .r1 value).status = s.status := rfl
@[simp] theorem State.writeReg_r1_mem (s : State) (value : Nibble) : (s.writeReg .r1 value).mem = s.mem := rfl
@[simp] theorem State.writeReg_r1_trace (s : State) (value : Nibble) : (s.writeReg .r1 value).trace = s.trace := rfl
@[simp] theorem State.writeReg_r1_oobPolicy (s : State) (value : Nibble) : (s.writeReg .r1 value).oobPolicy = s.oobPolicy := rfl

/-! A read of a cell and of a register after each update. -/

@[simp] theorem State.memRead_setPc (s : State) (t : Pc) (a : Nibble) : (s.setPc t).memRead a = s.memRead a := rfl
@[simp] theorem State.memRead_advancePc (s : State) (a : Nibble) : s.advancePc.memRead a = s.memRead a := rfl
@[simp] theorem State.memRead_emit (s : State) (e : Event) (a : Nibble) : (s.emit e).memRead a = s.memRead a := rfl
@[simp] theorem State.memRead_setStatus (s : State) (st : RunStatus) (a : Nibble) :
    (s.setStatus st).memRead a = s.memRead a := rfl

@[simp] theorem State.readReg_r0 (s : State) : s.readReg .r0 = s.r0 := rfl
@[simp] theorem State.readReg_r1 (s : State) : s.readReg .r1 = s.r1 := rfl

@[simp] theorem State.r0IsZero_iff (s : State) : s.r0IsZero = true ↔ s.r0 = 0#4 := by simp [State.r0IsZero]

@[simp] theorem memCells_eq : Config.memCells = 16 := rfl
@[simp] theorem operandThreshold_eq : Config.operandThreshold = 8 := rfl

/-- Each field of the state after reset with an image (R23). -/
@[simp] theorem State.resetWith_r0 (p : Config.OobOperandPolicy) (image : Image) : (State.resetWith p image).r0 = 0#4 := rfl
@[simp] theorem State.resetWith_r1 (p : Config.OobOperandPolicy) (image : Image) : (State.resetWith p image).r1 = 0#4 := rfl
@[simp] theorem State.resetWith_pc (p : Config.OobOperandPolicy) (image : Image) : (State.resetWith p image).pc = 0#5 := rfl
@[simp] theorem State.resetWith_status (p : Config.OobOperandPolicy) (image : Image) :
    (State.resetWith p image).status = .running := rfl
@[simp] theorem State.resetWith_mem (p : Config.OobOperandPolicy) (image : Image) :
    (State.resetWith p image).mem = Memory.ofCells 0 image.toList := rfl
@[simp] theorem State.resetWith_trace (p : Config.OobOperandPolicy) (image : Image) : (State.resetWith p image).trace = [] := rfl
@[simp] theorem State.resetWith_oobPolicy (p : Config.OobOperandPolicy) (image : Image) :
    (State.resetWith p image).oobPolicy = p := rfl

end Sys2Proof.Machine
end

