-- ==== Sys2Proof/Laws/Loader.lean ====
section
/-! SUPPORT. What the Loader's operations can do (the host beside the block). -/

namespace Sys2Proof.Machine

/-- Everything the end of a token can do: at most sixteen cells, or one of two errors (R145). -/
theorem flushToken_cases (cells : List Nibble) (buffer : List Char) (h : cells.length ≤ 16) :
    (∃ t, flushToken cells buffer = .ok t ∧ t.length ≤ 16) ∨
    flushToken cells buffer = .error .programTooLarge ∨
    flushToken cells buffer = .error .instructionTooLarge := by
  unfold flushToken checkToken
  by_cases hb : buffer.isEmpty = true
  · simp [hb, h]
  · by_cases hc : 16 ≤ cells.length
    · simp [hb, hc]
    · have hn : ¬ ((tokenValue buffer : Int) < 0) := by omega
      by_cases h15 : (15 : Int) < tokenValue buffer
      · simp only [hb, memCells_eq, hc, hn, h15]
        simp
      · simp only [hb, memCells_eq, hc, hn, h15]
        simp
        omega

/-- Digits join the buffer. -/
theorem scanText_digits (digits rest : List Char) (cells : List Nibble) (buffer : List Char)
    (h : ∀ c ∈ digits, isDigit c = true) :
    scanText (digits ++ rest) cells buffer = scanText rest cells (buffer ++ digits) := by
  induction digits generalizing buffer with
  | nil => simp
  | cons d ds ih =>
    simp only [List.cons_append, scanText, h d List.mem_cons_self, if_true]
    rw [ih _ fun c hc => h c (List.mem_cons_of_mem _ hc)]
    simp

end Sys2Proof.Machine
end

