-- ==== Sys2Proof/Laws/Memory.lean ====
section
/-! SUPPORT. What the memory operations do: a read after a write, and that every operation keeps the canonical form. -/

namespace Sys2Proof.Machine

theorem Memory.readCell_eraseCell (m : Memory) (a b : Nat) :
    (m.eraseCell a).readCell b = if a = b then 0#4 else m.readCell b := by
  induction m with
  | nil => simp [Memory.eraseCell, Memory.readCell]
  | cons c rest ih =>
    obtain ⟨c, v⟩ := c
    by_cases hca : c = a
    · subst hca
      simp only [Memory.eraseCell, if_true, ih, Memory.readCell]
      split <;> rfl
    · simp only [Memory.eraseCell, if_neg hca, Memory.readCell, ih]
      by_cases hcb : c = b
      · subst hcb
        simp [Ne.symm hca]
      · simp [hcb]

/-- An insertion of an address that is not listed is seen at that address alone. -/
theorem Memory.readCell_insertCell (m : Memory) (a b : Nat) (v : Nibble) (h : ∀ c ∈ m, c.1 ≠ a) :
    (m.insertCell a v).readCell b = if a = b then v else m.readCell b := by
  induction m with
  | nil => rfl
  | cons c rest ih =>
    obtain ⟨c, w⟩ := c
    have hca : c ≠ a := h (c, w) List.mem_cons_self
    have ih' := ih fun d hd => h d (List.mem_cons_of_mem _ hd)
    simp only [Memory.insertCell]
    split
    · simp only [Memory.readCell]
    · simp only [Memory.readCell, ih']
      by_cases hcb : c = b
      · subst hcb
        simp [Ne.symm hca]
      · simp [hcb]

theorem Memory.not_mem_eraseCell (m : Memory) (a : Nat) : ∀ c ∈ m.eraseCell a, c.1 ≠ a := by
  induction m with
  | nil => simp [Memory.eraseCell]
  | cons c rest ih =>
    obtain ⟨c, v⟩ := c
    by_cases hca : c = a
    · simpa [Memory.eraseCell, hca] using ih
    · simp only [Memory.eraseCell, if_neg hca, List.mem_cons, forall_eq_or_imp]
      exact ⟨hca, ih⟩

/-- A read after a write gives the value written, and every other cell reads as before, for any memory (R35). -/
theorem Memory.readCell_writeCell (m : Memory) (a b : Nat) (v : Nibble) :
    (m.writeCell a v).readCell b = if a = b then v else m.readCell b := by
  unfold Memory.writeCell
  split
  · rename_i hv
    rw [Memory.readCell_eraseCell, hv]
  · rw [Memory.readCell_insertCell _ _ _ _ (Memory.not_mem_eraseCell m a), Memory.readCell_eraseCell]
    split <;> rfl

theorem State.memRead_memWrite (s : State) (a v b : Nibble) :
    (s.memWrite a v).memRead b = if a = b then v else s.memRead b := by
  simp [State.memRead, Memory.readCell_writeCell, BitVec.toNat_inj]

@[simp] theorem Memory.wfFrom_cons (lo a : Nat) (v : Nibble) (rest : Memory) :
    Memory.wfFrom lo ((a, v) :: rest) = true ↔
      lo ≤ a ∧ a < 16 ∧ v ≠ 0#4 ∧ Memory.wfFrom (a + 1) rest = true := by
  simp [Memory.wfFrom, and_assoc]

theorem Memory.wfFrom_mono (m : Memory) (lo lo' : Nat) (hle : lo' ≤ lo) (h : Memory.wfFrom lo m = true) :
    Memory.wfFrom lo' m = true := by
  cases m with
  | nil => rfl
  | cons c rest =>
    obtain ⟨c, v⟩ := c
    simp only [Memory.wfFrom_cons] at h ⊢
    exact ⟨by omega, h.2⟩

theorem Memory.wfFrom_eraseCell (m : Memory) (lo a : Nat) (h : Memory.wfFrom lo m = true) :
    Memory.wfFrom lo (m.eraseCell a) = true := by
  induction m generalizing lo with
  | nil => rfl
  | cons c rest ih =>
    obtain ⟨c, v⟩ := c
    simp only [Memory.wfFrom_cons] at h
    simp only [Memory.eraseCell]
    split
    · exact ih lo (Memory.wfFrom_mono _ _ _ (by omega) h.2.2.2)
    · simp only [Memory.wfFrom_cons]
      exact ⟨h.1, h.2.1, h.2.2.1, ih _ h.2.2.2⟩

theorem Memory.wfFrom_insertCell (m : Memory) (lo a : Nat) (v : Nibble) (hlo : lo ≤ a) (ha : a < 16) (hv : v ≠ 0#4)
    (hm : ∀ c ∈ m, c.1 ≠ a) (h : Memory.wfFrom lo m = true) : Memory.wfFrom lo (m.insertCell a v) = true := by
  induction m generalizing lo with
  | nil => simp [Memory.insertCell, Memory.wfFrom, hlo, ha, hv]
  | cons c rest ih =>
    obtain ⟨c, w⟩ := c
    have hca : c ≠ a := hm (c, w) List.mem_cons_self
    simp only [Memory.wfFrom_cons] at h
    simp only [Memory.insertCell]
    split
    · simp only [Memory.wfFrom_cons]
      exact ⟨hlo, ha, hv, by omega, h.2⟩
    · simp only [Memory.wfFrom_cons]
      exact ⟨h.1, h.2.1, h.2.2.1,
        ih (c + 1) (by omega) (fun d hd => hm d (List.mem_cons_of_mem _ hd)) h.2.2.2⟩

/-- A write to a cell of memory keeps the canonical form. -/
theorem Memory.wf_writeCell (m : Memory) (a : Nat) (v : Nibble) (ha : a < 16) (h : m.wf = true) :
    (m.writeCell a v).wf = true := by
  unfold Memory.writeCell
  split
  · exact Memory.wfFrom_eraseCell m 0 a h
  · exact Memory.wfFrom_insertCell _ 0 a v (by omega) ha ‹_› (Memory.not_mem_eraseCell m a)
      (Memory.wfFrom_eraseCell m 0 a h)

theorem State.wf_memWrite (s : State) (a v : Nibble) (h : s.mem.wf = true) : (s.memWrite a v).mem.wf = true :=
  Memory.wf_writeCell s.mem a.toNat v a.isLt h

/-- The memory made of a list of cells that fit below address 16 is canonical. -/
theorem Memory.wfFrom_ofCells (cells : List Nibble) (lo : Nat) (h : lo + cells.length ≤ 16) :
    Memory.wfFrom lo (Memory.ofCells lo cells) = true := by
  induction cells generalizing lo with
  | nil => rfl
  | cons v rest ih =>
    simp only [List.length_cons] at h
    simp only [Memory.ofCells]
    split
    · exact Memory.wfFrom_mono _ _ _ (by omega) (ih (lo + 1) (by omega))
    · simp only [Memory.wfFrom_cons]
      exact ⟨le_refl _, by omega, ‹_›, ih (lo + 1) (by omega)⟩

/-- Below the first address it was made from, `ofCells` lists nothing. -/
theorem Memory.readCell_ofCells_below (cells : List Nibble) (lo a : Nat) (h : a < lo) :
    (Memory.ofCells lo cells).readCell a = 0#4 := by
  induction cells generalizing lo with
  | nil => rfl
  | cons v rest ih =>
    simp only [Memory.ofCells]
    split
    · exact ih (lo + 1) (by omega)
    · simp only [Memory.readCell, if_neg (show lo ≠ a by omega)]
      exact ih (lo + 1) (by omega)

/-- The memory made of a list of cells reads as the list, and 0 after it. -/
theorem Memory.readCell_ofCells (cells : List Nibble) (lo k : Nat) :
    (Memory.ofCells lo cells).readCell (lo + k) = cells.getD k 0#4 := by
  induction cells generalizing lo k with
  | nil => rfl
  | cons v rest ih =>
    cases k with
    | zero =>
      by_cases hv : v = 0#4
      · simpa [Memory.ofCells, hv] using Memory.readCell_ofCells_below rest (lo + 1) lo (by omega)
      · simp [Memory.ofCells, hv, Memory.readCell]
    | succ k =>
      have hk := ih (lo + 1) k
      rw [show lo + 1 + k = lo + (k + 1) by omega] at hk
      by_cases hv : v = 0#4
      · simpa [Memory.ofCells, hv] using hk
      · simpa [Memory.ofCells, hv, Memory.readCell] using hk

/-- Reset makes a canonical memory, whatever the image (R140). -/
theorem State.wf_resetWith (p : Config.OobOperandPolicy) (image : Image) : (State.resetWith p image).mem.wf = true :=
  Memory.wfFrom_ofCells image.toList 0 (by simp)

/-- The memory of `State.reset` is canonical. -/
theorem State.wf_reset : State.reset.mem.wf = true := rfl

end Sys2Proof.Machine
end

