-- ==== Sys2Proof/Laws/Ops.lean ====
section
/-! SUPPORT. One lemma per shared operation that says once everything it can do. -/

namespace Sys2Proof.Machine

/-- The residue of an exact result, as a number (R80). -/
theorem residue_toNat (n : Int) : ((residue n).toNat : Int) = n % 16 := by
  simp only [residue, BitVec.toNat_ofNat]
  omega

/-- What `addToReg` does: the register becomes the residue, and it is the only thing written (R80). -/
theorem addToReg_eq (d : Reg) (n : Int) (s : State) :
    addToReg d n s = s.writeReg d (residue (((s.readReg d).toNat : Int) + n)) := rfl

/-- What a load does (R100). -/
theorem loadReg_eq (d : Reg) (a : Nibble) (s : State) : loadReg d a s = s.writeReg d (s.memRead a) := rfl

/-- What a store does (R100). -/
theorem storeReg_eq (r : Reg) (a : Nibble) (s : State) : storeReg r a s = s.memWrite a (s.readReg r) := rfl

/-- What a jump does: at most ip changes (R110). -/
theorem jumpIf_cases (c : Bool) (a : Nibble) (s : State) :
    (c = true ∧ jumpIf c a s = s.setPc (a.setWidth 5)) ∨ (c = false ∧ jumpIf c a s = s) := by
  cases c
  · exact .inr ⟨rfl, rfl⟩
  · exact .inl ⟨rfl, rfl⟩

theorem jumpTarget_toNat (a : Nibble) : (jumpTarget a).toNat = a.toNat := by
  have := a.isLt
  simp [jumpTarget]
  omega

theorem pcBeyondMemory_iff (s : State) : s.pcBeyondMemory = true ↔ 16 ≤ s.pc.toNat := by simp [State.pcBeyondMemory]

theorem pcCell_toNat (s : State) (h : s.pc.toNat ≤ 15) : s.pcCell.toNat = s.pc.toNat := by
  simp only [State.pcCell, BitVec.toNat_setWidth]
  omega

theorem memRead_pcCell (s : State) (h : s.pc.toNat ≤ 15) : s.memRead s.pcCell = s.mem.readCell s.pc.toNat := by
  rw [State.memRead, pcCell_toNat s h]

theorem advancePc_toNat (s : State) (h : s.pc.toNat ≤ 16) : s.advancePc.pc.toNat = s.pc.toNat + 1 := by
  simp only [State.advancePc_pc, BitVec.toNat_add, BitVec.toNat_ofNat]
  omega

theorem takesOperand_iff (op : Nibble) : takesOperand op = true ↔ 8 ≤ op.toNat := by simp [takesOperand]

/-- The test "8 or more" is the test of the opcode's top bit (R55). -/
theorem takesOperand_eq_msb (op : Nibble) : takesOperand op = op[3] := by revert op; decide

/-- Everything the fetch phases can give (R70 to R72, R121, R122): the implicit halt; a format N instruction; a format A
instruction with its operand cell; the fault; the operand 0 of `readZero`. -/
theorem fetch_cases (s : State) :
    (16 ≤ s.pc.toNat ∧ fetch s = .execute .halt s) ∨
    (s.pc.toNat ≤ 15 ∧ (s.mem.readCell s.pc.toNat).toNat < 8 ∧
      fetch s = .execute (decodeCells (s.mem.readCell s.pc.toNat) 0#4) s.advancePc) ∨
    (s.pc.toNat ≤ 14 ∧ 8 ≤ (s.mem.readCell s.pc.toNat).toNat ∧
      fetch s = .execute (decodeCells (s.mem.readCell s.pc.toNat) (s.mem.readCell (s.pc.toNat + 1)))
        s.advancePc.advancePc) ∨
    (s.pc.toNat = 15 ∧ 8 ≤ (s.mem.readCell 15).toNat ∧ s.oobPolicy = .fault ∧
      fetch s = .operandOutOfRange s.advancePc) ∨
    (s.pc.toNat = 15 ∧ 8 ≤ (s.mem.readCell 15).toNat ∧ s.oobPolicy = .readZero ∧
      fetch s = .execute (decodeCells (s.mem.readCell 15) 0#4) s.advancePc.advancePc) := by
  by_cases hb : 16 ≤ s.pc.toNat
  · exact .inl ⟨hb, by simp [fetch, pcBeyondMemory_iff, hb]⟩
  refine .inr ?_
  have h15 : s.pc.toNat ≤ 15 := by omega
  have hn : s.advancePc.pc.toNat = s.pc.toNat + 1 := advancePc_toNat s (by omega)
  by_cases ho : 8 ≤ (s.mem.readCell s.pc.toNat).toNat
  · refine .inr ?_
    have hf : fetch s = fetchOperand (s.mem.readCell s.pc.toNat) s.advancePc := by
      simp [fetch, pcBeyondMemory_iff, hb, memRead_pcCell s h15, takesOperand_iff, ho]
    rw [hf]
    by_cases h14 : s.pc.toNat ≤ 14
    · refine .inl ⟨h14, ho, ?_⟩
      have hnb : ¬ 16 ≤ s.advancePc.pc.toNat := by omega
      unfold fetchOperand
      rw [if_neg (by rw [pcBeyondMemory_iff]; exact hnb), memRead_pcCell _ (by omega), hn]
      rfl
    · have he : s.pc.toNat = 15 := by omega
      have hyb : s.advancePc.pcBeyondMemory = true := by rw [pcBeyondMemory_iff]; omega
      rw [he] at ho ⊢
      refine .inr ?_
      cases hp : s.oobPolicy with
      | fault => exact .inl ⟨rfl, ho, rfl, by simp [fetchOperand, hyb, hp]⟩
      | readZero => exact .inr ⟨rfl, ho, rfl, by simp [fetchOperand, hyb, hp]⟩
  · refine .inl ⟨h15, by omega, ?_⟩
    simp [fetch, pcBeyondMemory_iff, hb, memRead_pcCell s h15, takesOperand_iff, ho]

/-- Two increments of ip are one step of 2. -/
theorem advancePc_advancePc (s : State) : s.advancePc.advancePc = s.setPc (s.pc + 2#5) := by
  simp [State.advancePc, State.setPc, BitVec.add_assoc]

/-- An opcode below 8 decodes to a one-cell instruction (R50). -/
theorem lengthCells_decodeCells_one (op v : Nibble) (h : op.toNat < 8) : (decodeCells op v).lengthCells = 1 := by
  revert h
  revert op v
  decide

/-- An opcode of 8 or more decodes to a two-cell instruction (R50). -/
theorem lengthCells_decodeCells_two (op v : Nibble) (h : 8 ≤ op.toNat) : (decodeCells op v).lengthCells = 2 := by
  revert h
  revert op v
  decide

/-- From an address of memory on, `cellsFrom` lists its cell and then those after it. -/
theorem cellsFrom_cons (s : State) (a : Nat) (h : a ≤ 15) :
    s.cellsFrom a = s.mem.readCell a :: s.cellsFrom (a + 1) := by
  simp only [State.cellsFrom, Config.memCells]
  rw [show 16 - a = (16 - (a + 1)) + 1 by omega, List.range'_succ]
  rfl

/-- Above cell 15 there is no cell. -/
theorem cellsFrom_nil (s : State) (a : Nat) (h : 16 ≤ a) : s.cellsFrom a = [] := by
  simp [State.cellsFrom, show 16 - a = 0 by omega]

/-- Where there is room for two cells at ip, placing them writes both and makes the block RUNNING. -/
theorem placeAtPc_eq (s : State) (first second : Nibble) (h : s.pc.toNat ≤ 14) :
    s.placeAtPc first second =
      { s with
        status := .running
        mem := (s.mem.writeCell s.pc.toNat first).writeCell (s.pc.toNat + 1) second } := by
  simp [State.placeAtPc, State.placeCell, State.setStatus, show s.pc.toNat < 16 by omega,
    show s.pc.toNat + 1 < 16 by omega]

end Sys2Proof.Machine
end

