-- ==== Sys2Proof/Laws/PerInstr.lean ====
section
/-! SUPPORT. The per-instruction families of LAWS.json. -/

/-- The shape of an instruction's encoding (R50 to R52, R55, R58): an opcode cell first, as many cells as the instruction
is long, and the opcode of 8 or more exactly on the two-cell ones. -/
def Sys2Proof.Laws.EncodingShape.Statement (i : Sys2Proof.Instr) : Prop :=
  ∃ opcode operands, Sys2Proof.encode i = opcode :: operands ∧ operands.length + 1 = i.lengthCells ∧
    (Sys2Proof.takesOperand opcode = true ↔ i.lengthCells = 2)

namespace Sys2Proof.Laws

theorem EncodingShape.halt : EncodingShape.Statement .halt := ⟨_, _, rfl, rfl, by decide⟩
theorem EncodingShape.add : EncodingShape.Statement .add := ⟨_, _, rfl, rfl, by decide⟩
theorem EncodingShape.sub : EncodingShape.Statement .sub := ⟨_, _, rfl, rfl, by decide⟩
theorem EncodingShape.inc0 : EncodingShape.Statement .inc0 := ⟨_, _, rfl, rfl, by decide⟩
theorem EncodingShape.inc1 : EncodingShape.Statement .inc1 := ⟨_, _, rfl, rfl, by decide⟩
theorem EncodingShape.dec0 : EncodingShape.Statement .dec0 := ⟨_, _, rfl, rfl, by decide⟩
theorem EncodingShape.dec1 : EncodingShape.Statement .dec1 := ⟨_, _, rfl, rfl, by decide⟩
theorem EncodingShape.bell : EncodingShape.Statement .bell := ⟨_, _, rfl, rfl, by decide⟩
theorem EncodingShape.print (v : Nibble) : EncodingShape.Statement (.print v) := ⟨_, _, rfl, rfl, ⟨fun _ => rfl, fun _ => by decide⟩⟩
theorem EncodingShape.load0 (a : Nibble) : EncodingShape.Statement (.load0 a) := ⟨_, _, rfl, rfl, ⟨fun _ => rfl, fun _ => by decide⟩⟩
theorem EncodingShape.load1 (a : Nibble) : EncodingShape.Statement (.load1 a) := ⟨_, _, rfl, rfl, ⟨fun _ => rfl, fun _ => by decide⟩⟩
theorem EncodingShape.store0 (a : Nibble) : EncodingShape.Statement (.store0 a) := ⟨_, _, rfl, rfl, ⟨fun _ => rfl, fun _ => by decide⟩⟩
theorem EncodingShape.store1 (a : Nibble) : EncodingShape.Statement (.store1 a) := ⟨_, _, rfl, rfl, ⟨fun _ => rfl, fun _ => by decide⟩⟩
theorem EncodingShape.jmp (t : Nibble) : EncodingShape.Statement (.jmp t) := ⟨_, _, rfl, rfl, ⟨fun _ => rfl, fun _ => by decide⟩⟩
theorem EncodingShape.jz (t : Nibble) : EncodingShape.Statement (.jz t) := ⟨_, _, rfl, rfl, ⟨fun _ => rfl, fun _ => by decide⟩⟩
theorem EncodingShape.jnz (t : Nibble) : EncodingShape.Statement (.jnz t) := ⟨_, _, rfl, rfl, ⟨fun _ => rfl, fun _ => by decide⟩⟩

end Sys2Proof.Laws
end

