-- ==== Sys2Proof/Laws/Step.lean ====
section
/-! SUPPORT. What an instruction's effect and a step can do, said once: the lemmas that later proofs cite instead of
unfolding `exec` and `step`. -/

namespace Sys2Proof.Machine

/-- Everything an instruction's effect can do, field by field (R73, R120): it always answers a next state. -/
theorem exec_cases (i : Instr) (s : State) : ∃ t, exec i s = .next t ∧
    t.oobPolicy = s.oobPolicy ∧
    t.status = (if i = .halt then .halted else s.status) ∧
    t.pc = (match i with
      | .jmp a => a.setWidth 5
      | .jz a => if s.r0 = 0#4 then a.setWidth 5 else s.pc
      | .jnz a => if s.r0 = 0#4 then s.pc else a.setWidth 5
      | _ => s.pc) ∧
    t.mem = (match i with
      | .store0 a => s.mem.writeCell a.toNat s.r0
      | .store1 a => s.mem.writeCell a.toNat s.r1
      | _ => s.mem) ∧
    t.trace = (match i with
      | .print v => s.trace ++ [.print v]
      | .bell => s.trace ++ [.bell]
      | _ => s.trace) ∧
    t.r0 = (match i with
      | .add => residue ((s.r0.toNat : Int) + s.r1.toNat)
      | .sub => residue ((s.r0.toNat : Int) + -(s.r1.toNat : Int))
      | .inc0 => residue ((s.r0.toNat : Int) + 1)
      | .dec0 => residue ((s.r0.toNat : Int) + -1)
      | .load0 a => s.mem.readCell a.toNat
      | _ => s.r0) ∧
    t.r1 = (match i with
      | .inc1 => residue ((s.r1.toNat : Int) + 1)
      | .dec1 => residue ((s.r1.toNat : Int) + -1)
      | .load1 a => s.mem.readCell a.toNat
      | _ => s.r1) := by
  cases i with
  | jz a =>
    refine ⟨_, rfl, ?_⟩
    by_cases h : s.r0 = 0#4 <;> simp [jumpIf, State.r0IsZero, h, jumpTarget]
  | jnz a =>
    refine ⟨_, rfl, ?_⟩
    by_cases h : s.r0 = 0#4 <;> simp [jumpIf, State.r0IsZero, h, jumpTarget]
  | _ => exact ⟨_, rfl, rfl, rfl, rfl, rfl, rfl, rfl, rfl⟩

/-- Everything a step can do, in every run status (R70, R19). -/
theorem step_cases (s : State) :
    (s.status = .running ∧ ∃ i t, fetch s = .execute i t ∧ step s = exec i t) ∨
    (s.status = .running ∧ ∃ t, fetch s = .operandOutOfRange t ∧ step s = .next t.raiseOperandFetchOutOfRange) ∨
    (s.status = .halted ∧ step s = .next s) ∨
    (s.status = .faulted ∧ step s = .fault (.operandFetchOutOfRange s.pc)) := by
  cases hs : s.status with
  | running =>
    cases hf : fetch s with
    | execute i t => exact .inl ⟨rfl, i, t, rfl, by simp [step, hs, hf]⟩
    | operandOutOfRange t => exact .inr (.inl ⟨rfl, t, rfl, by simp [step, hs, hf]⟩)
  | halted => exact .inr (.inr (.inl ⟨rfl, by simp [step, hs, State.heldHalted]⟩))
  | faulted => exact .inr (.inr (.inr ⟨rfl, by simp [step, hs, State.stoppedFaulted]⟩))

/-- Everything a step of a RUNNING block can do, by where ip stands and what its opcode cell holds (R70 to R72, R121,
R122). -/
theorem step_running_cases (s : State) (hr : s.status = .running) :
    (16 ≤ s.pc.toNat ∧ step s = exec .halt s) ∨
    (s.pc.toNat ≤ 15 ∧ s.opcodeAtPc.toNat < 8 ∧
      step s = exec (decodeCells s.opcodeAtPc 0#4) (s.setPc (s.pc + 1#5))) ∨
    (s.pc.toNat ≤ 14 ∧ 8 ≤ s.opcodeAtPc.toNat ∧
      step s = exec (decodeCells s.opcodeAtPc s.operandAtPc) (s.setPc (s.pc + 2#5))) ∨
    (s.pc.toNat = 15 ∧ 8 ≤ s.opcodeAtPc.toNat ∧ s.oobPolicy = .fault ∧
      step s = .next ((s.setPc 16#5).setStatus .faulted)) ∨
    (s.pc.toNat = 15 ∧ 8 ≤ s.opcodeAtPc.toNat ∧ s.oobPolicy = .readZero ∧
      step s = exec (decodeCells s.opcodeAtPc 0#4) (s.setPc 17#5)) := by
  have hexec : ∀ i t, fetch s = .execute i t → step s = exec i t := fun i t h => by simp [step, hr, h]
  have hpc : s.pc.toNat = 15 → s.pc = 15#5 := fun h => BitVec.eq_of_toNat_eq h
  unfold State.opcodeAtPc State.operandAtPc
  rcases fetch_cases s with ⟨ha, hf⟩ | ⟨ha, ho, hf⟩ | ⟨ha, ho, hf⟩ | ⟨ha, ho, hp, hf⟩ | ⟨ha, ho, hp, hf⟩
  · exact .inl ⟨ha, hexec _ _ hf⟩
  · exact .inr (.inl ⟨ha, ho, hexec _ _ hf⟩)
  · exact .inr (.inr (.inl ⟨ha, ho, by rw [hexec _ _ hf, advancePc_advancePc]⟩))
  · refine .inr (.inr (.inr (.inl ⟨ha, by rwa [ha], hp, ?_⟩)))
    simp [step, hr, hf, State.raiseOperandFetchOutOfRange, State.advancePc, hpc ha]
  · refine .inr (.inr (.inr (.inr ⟨ha, by rwa [ha], hp, ?_⟩)))
    rw [hexec _ _ hf, advancePc_advancePc, ha, hpc ha]
    rfl

end Sys2Proof.Machine
end

