-- ==== Sys2Proof/Tests/Slice0.lean ====
section
/-! SUPPORT. The model's own tests. Expected results are the spec's: the words from 30_encoding.md R54, the single steps from
95_test_vectors.md sections 2 to 4 (the row is named), the Loader's texts from its section 6. The theorems named
test_witness_… show states and operands that meet the hypotheses of the statements, each clause at a boundary. -/

namespace Sys2Proof.Tests

open Sys2Proof Sys2Proof.Machine Sys2Proof.Config

/-- The reset state with these registers, this ip and these cells (given in canonical form, other cells 0). -/
def stateAt (r0 r1 : Nibble) (pc : Pc) (cells : Memory) : State := { State.reset with r0 := r0, r1 := r1, pc := pc, mem := cells }

/-- The state one step later. -/
def stepped (s : State) : State := runFor 1 s

/-- r0, r1, ip, status of a state, as the vectors list them. -/
def row (s : State) : Nibble × Nibble × Pc × RunStatus := (s.r0, s.r1, s.pc, s.status)

/-! ### Well-formedness: an ill-formed term for each check -/

theorem test_wf_opcode_cell_refuses_16 : Instr.opcodeCellExists 16 = false := by decide
theorem test_wf_operand_cell_refuses_print_at_15 : (Instr.print 5#4).operandCellExists 15 = false := by decide
theorem test_wf_refuses_halt_at_16 : Instr.halt.wellFormedAt 16 = false := by decide
theorem test_wf_refuses_jmp_at_15 : (Instr.jmp 0#4).wellFormedAt 15 = false := by decide
theorem test_wf_accepts_last_places : Instr.add.wellFormedAt 15 = true ∧ (Instr.jmp 0#4).wellFormedAt 14 = true := by decide
theorem test_mem_wf_refuses_unsorted : Memory.wf [(3, 1#4), (2, 1#4)] = false := by decide
theorem test_mem_wf_refuses_zero_and_16 : Memory.wf [(3, 0#4)] = false ∧ Memory.wf [(16, 1#4)] = false := by decide

/-! ### Decoding: one word per constructor, R54's binary column -/

theorem test_decode_halt : decode [0b0000#4] = .ok (.halt, []) := by rfl
theorem test_decode_add : decode [0b0001#4] = .ok (.add, []) := by rfl
theorem test_decode_sub : decode [0b0010#4] = .ok (.sub, []) := by rfl
theorem test_decode_inc0 : decode [0b0011#4] = .ok (.inc0, []) := by rfl
theorem test_decode_inc1 : decode [0b0100#4] = .ok (.inc1, []) := by rfl
theorem test_decode_dec0 : decode [0b0101#4] = .ok (.dec0, []) := by rfl
theorem test_decode_dec1 : decode [0b0110#4] = .ok (.dec1, []) := by rfl
theorem test_decode_bell : decode [0b0111#4] = .ok (.bell, []) := by rfl
theorem test_decode_print : decode [0b1000#4, 0b1101#4] = .ok (.print 13#4, []) := by rfl
theorem test_decode_load0 : decode [0b1001#4, 0b1111#4] = .ok (.load0 15#4, []) := by rfl
theorem test_decode_load1 : decode [0b1010#4, 0b1110#4] = .ok (.load1 14#4, []) := by rfl
theorem test_decode_store0 : decode [0b1011#4, 0b0100#4] = .ok (.store0 4#4, []) := by rfl
theorem test_decode_store1 : decode [0b1100#4, 0b1001#4] = .ok (.store1 9#4, []) := by rfl
theorem test_decode_jmp : decode [0b1101#4, 0b0010#4] = .ok (.jmp 2#4, []) := by rfl
theorem test_decode_jz : decode [0b1110#4, 0b1000#4] = .ok (.jz 8#4, []) := by rfl
theorem test_decode_jnz : decode [0b1111#4, 0b0001#4] = .ok (.jnz 1#4, []) := by rfl
theorem test_decode_leaves_the_rest : decode [0b0011#4, 8#4, 0#4] = .ok (.inc0, [8#4, 0#4]) := by rfl
theorem test_decode_refuses_no_cell : decode [] = .error .noOpcodeCell := by rfl
theorem test_decode_refuses_no_operand : decode [0b1101#4] = .error (.noOperandCell 13#4) := by rfl

/-- Each row's `match` of spec/opcode_table.json, and operand bits in 3:0. -/
theorem test_table_words :
    [0x0, 0x1, 0x2, 0x3, 0x4, 0x5, 0x6, 0x7, 0x80, 0x91, 0xA2, 0xB3, 0xC4, 0xD5, 0xE6, 0xFF].map (decodeTableWord 8) =
      [some .halt, some .add, some .sub, some .inc0, some .inc1, some .dec0, some .dec1, some .bell, some (.print 0#4),
        some (.load0 1#4), some (.load1 2#4), some (.store0 3#4), some (.store1 4#4), some (.jmp 5#4), some (.jz 6#4),
        some (.jnz 15#4)] := by decide
theorem test_table_word_of_no_row : decodeTableWord 8 0x08 = none := by decide
theorem test_table_word_of_four_bits : decodeTableWord 4 0x3 = some .inc0 ∧ decodeTableWord 4 0x8 = some (.print 0#4) := by
  decide
theorem test_fetch_word_runs : row (stepped (State.reset.withFetchWord 8 0xD5)) = (0#4, 0#4, 5#5, .running) := by decide

/-! ### Single steps (95_test_vectors.md section 2) -/

theorem test_add_wraps : row (stepped (stateAt 9#4 12#4 0#5 [(0, 1#4)])) = (5#4, 12#4, 1#5, .running) := by decide
theorem test_sub_borrows : row (stepped (stateAt 2#4 5#4 0#5 [(0, 2#4)])) = (13#4, 5#4, 1#5, .running) := by decide
theorem test_sub_0_15 : row (stepped (stateAt 0#4 15#4 0#5 [(0, 2#4)])) = (1#4, 15#4, 1#5, .running) := by decide
theorem test_inc0_wraps : row (stepped (stateAt 15#4 3#4 0#5 [(0, 3#4)])) = (0#4, 3#4, 1#5, .running) := by decide
theorem test_inc1_wraps : row (stepped (stateAt 7#4 15#4 0#5 [(0, 4#4)])) = (7#4, 0#4, 1#5, .running) := by decide
theorem test_dec0_wraps : row (stepped (stateAt 0#4 3#4 0#5 [(0, 5#4)])) = (15#4, 3#4, 1#5, .running) := by decide
theorem test_dec1_wraps : row (stepped (stateAt 7#4 0#4 0#5 [(0, 6#4)])) = (7#4, 15#4, 1#5, .running) := by decide

/-! ### Single steps (95_test_vectors.md section 3) -/

theorem test_halt : row (stepped (stateAt 6#4 2#4 4#5 [])) = (6#4, 2#4, 5#5, .halted) := by decide
theorem test_halt_in_last_cell : row (stepped (stateAt 0#4 0#4 15#5 [])) = (0#4, 0#4, 16#5, .halted) := by decide
theorem test_implicit_halt : row (stepped (stateAt 3#4 1#4 16#5 [(0, 3#4)])) = (3#4, 1#4, 16#5, .halted) := by decide
theorem test_bell : (stepped (stateAt 5#4 5#4 2#5 [(2, 7#4)])).trace = [.bell] := by decide
theorem test_bell_row : row (stepped (stateAt 5#4 5#4 2#5 [(2, 7#4)])) = (5#4, 5#4, 3#5, .running) := by decide
theorem test_print_is_not_indirect :
    (stepped (stateAt 0#4 0#4 0#5 [(0, 8#4), (1, 5#4), (5, 9#4)])).trace = [.print 5#4] := by decide
theorem test_print_row : row (stepped (stateAt 3#4 0#4 3#5 [(3, 8#4)])) = (3#4, 0#4, 5#5, .running) := by decide
theorem test_load0 :
    row (stepped (stateAt 0#4 0#4 0#5 [(0, 9#4), (1, 15#4), (15, 7#4)])) = (7#4, 0#4, 2#5, .running) := by decide
theorem test_load0_own_operand :
    row (stepped (stateAt 0#4 0#4 6#5 [(6, 9#4), (7, 7#4)])) = (7#4, 0#4, 8#5, .running) := by decide
theorem test_load1 :
    row (stepped (stateAt 2#4 0#4 2#5 [(2, 10#4), (3, 15#4), (15, 5#4)])) = (2#4, 5#4, 4#5, .running) := by decide
theorem test_store0 :
    (stepped (stateAt 7#4 0#4 2#5 [(2, 11#4), (3, 4#4)])).mem = [(2, 11#4), (3, 4#4), (4, 7#4)] := by decide
theorem test_store0_own_opcode :
    (stepped (stateAt 1#4 0#4 1#5 [(1, 11#4), (2, 1#4)])).mem = [(1, 1#4), (2, 1#4)] := by decide
theorem test_store1 :
    (stepped (stateAt 0#4 3#4 0#5 [(0, 12#4), (1, 15#4)])).mem = [(0, 12#4), (1, 15#4), (15, 3#4)] := by decide
theorem test_store1_zero_unlists : (stepped (stateAt 9#4 0#4 0#5 [(0, 12#4), (1, 5#4), (5, 2#4)])).mem = [(0, 12#4), (1, 5#4)] := by
  decide
theorem test_jmp_backward : row (stepped (stateAt 2#4 0#4 3#5 [(3, 13#4)])) = (2#4, 0#4, 0#5, .running) := by decide
theorem test_jmp_to_15 : row (stepped (stateAt 0#4 0#4 0#5 [(0, 13#4), (1, 15#4)])) = (0#4, 0#4, 15#5, .running) := by decide
theorem test_jz_taken : row (stepped (stateAt 0#4 6#4 4#5 [(4, 14#4), (5, 9#4)])) = (0#4, 6#4, 9#5, .running) := by decide
theorem test_jz_ignores_r1 : row (stepped (stateAt 1#4 0#4 4#5 [(4, 14#4), (5, 9#4)])) = (1#4, 0#4, 6#5, .running) := by decide
theorem test_jnz_taken : row (stepped (stateAt 2#4 0#4 4#5 [(4, 15#4), (5, 2#4)])) = (2#4, 0#4, 2#5, .running) := by decide
theorem test_jnz_not_taken_at_14 :
    row (stepped (stateAt 0#4 0#4 14#5 [(14, 15#4), (15, 2#4)])) = (0#4, 0#4, 16#5, .running) := by decide

/-! ### The last cell (95_test_vectors.md section 4): cells 13, 15, …, op and ip at 15 -/

/-- The state of section 4 before its step 2, under a policy. -/
def lastCell (p : OobOperandPolicy) (op : Nibble) : State :=
  { stateAt 0#4 0#4 15#5 [(0, 13#4), (1, 15#4), (15, op)] with oobPolicy := p }

theorem test_last_cell_fault : ∀ op ∈ [8#4, 9#4, 10#4, 11#4, 12#4, 13#4, 14#4, 15#4],
    stepped (lastCell .fault op) = { lastCell .fault op with pc := 16#5, status := .faulted } := by decide
theorem test_last_cell_read_zero : [9#4, 10#4, 13#4, 14#4, 15#4].map (fun op => row (stepped (lastCell .readZero op))) =
    [(13#4, 0#4, 17#5, .running), (0#4, 13#4, 17#5, .running), (0#4, 0#4, 0#5, .running), (0#4, 0#4, 0#5, .running),
      (0#4, 0#4, 17#5, .running)] := by decide
theorem test_last_cell_read_zero_print : (stepped (lastCell .readZero 8#4)).trace = [.print 0#4] := by decide
theorem test_last_cell_read_zero_store : (stepped (lastCell .readZero 12#4)).mem.readCell 0 = 0#4 := by decide
theorem test_faulted_has_no_next_state : step (stepped (lastCell .fault 8#4)) = .fault (.operandFetchOutOfRange 16#5) := by rfl
theorem test_halted_is_held : step (stepped State.reset) = .next (stepped State.reset) := by rfl

/-! ### The Loader and the rendering (95_test_vectors.md section 6; R93 to R95) -/

/-- A Loader result: its tokens, or the error. -/
def tokensOf (text : List Char) : List Nibble ⊕ LoadError :=
  match loadTokens text with
  | .ok ts => .inl ts
  | .error e => .inr e

theorem test_load_separators : tokensOf ['3', ',', '3', ';', '3', '\t', '8', '\n', '0'] = .inl [3#4, 3#4, 3#4, 8#4, 0#4] := by rfl
theorem test_load_letter_and_minus :
    tokensOf ['1', 'a', '2'] = .inl [1#4, 2#4] ∧ tokensOf ['-', '5'] = .inl [5#4] ∧ tokensOf ['0', '0', '7'] = .inl [7#4] :=
  ⟨rfl, rfl, rfl⟩
theorem test_load_16_is_too_large :
    tokensOf ['1', '5'] = .inl [15#4] ∧ tokensOf ['1', '6'] = .inr .instructionTooLarge := ⟨rfl, rfl⟩
theorem test_load_command_cases (t : List Char) (u v : Option (List Char)) :
    loadInvocation [none] t = .error .cannotOpenInput ∧ loadInvocation [u, v] t = .error .usageError := ⟨rfl, rfl⟩
theorem test_render : renderTrace .bellCharacter [.print 13#4, .bell, .print 0#4] = ['1', '3', ' ', '\x07', '0', ' '] := by rfl
theorem test_observe_halted : (observe .bellCharacter (stepped State.reset)).stdout = ['\n'] ∧
    (observe .bellCharacter (stepped State.reset)).exitCode = some 0 := ⟨rfl, rfl⟩

/-! ### Witnesses of the statements' hypotheses -/

theorem test_witness_EveryOpcodeAndOperandDecodes : (7#4 : Nibble).toNat < 8 ∧ 8 ≤ (8#4 : Nibble).toNat := by decide
theorem test_witness_TableWordStoredAtPcIsRun :
    (stateAt 0#4 0#4 14#5 []).pc.toNat ≤ 14 ∧ decodeTableWord 8 0x9F = some (.load0 15#4) := by decide
theorem test_witness_StepRunsTheDecodedInstruction :
    (stateAt 0#4 0#4 14#5 [(14, 13#4), (15, 3#4)]).status = .running ∧
      decode ((stateAt 0#4 0#4 14#5 [(14, 13#4), (15, 3#4)]).cellsFrom 14) = .ok (.jmp 3#4, []) := ⟨rfl, rfl⟩
theorem test_witness_EncodedInstructionInMemoryIsRun :
    (stateAt 0#4 0#4 14#5 [(14, 13#4), (15, 3#4)]).status = .running ∧ (Instr.jmp 3#4).wellFormedAt 14 = true ∧
      ∀ (k : Nat) (v : Nibble), (encode (.jmp 3#4))[k]? = some v →
        (stateAt 0#4 0#4 14#5 [(14, 13#4), (15, 3#4)]).mem.readCell (14 + k) = v := by
  refine ⟨rfl, rfl, fun k v h => ?_⟩
  match k, h with
  | 0, h => exact Option.some.inj h
  | 1, h => exact Option.some.inj h
theorem test_witness_ImplicitHaltAboveCell15 :
    (stateAt 1#4 2#4 16#5 []).status = .running ∧ 16 ≤ (stateAt 1#4 2#4 16#5 []).pc.toNat := by decide
/-- One state for each row of R14's table, in its order, at the highest address the row allows. -/
theorem test_witness_IpAfterEveryStep :
    (∀ s ∈ [stateAt 0#4 0#4 16#5 [], stateAt 0#4 0#4 15#5 [], stateAt 0#4 0#4 15#5 [(15, 1#4)],
        stateAt 0#4 0#4 15#5 [(15, 7#4)], stateAt 0#4 0#4 14#5 [(14, 8#4)], stateAt 0#4 0#4 14#5 [(14, 12#4)],
        stateAt 0#4 0#4 14#5 [(14, 13#4)], stateAt 0#4 0#4 14#5 [(14, 14#4)], stateAt 0#4 0#4 14#5 [(14, 15#4)],
        lastCell .fault 8#4, lastCell .readZero 15#4], s.status = .running) ∧
    (stateAt 0#4 0#4 15#5 []).opcodeAtPc = 0#4 ∧ (stateAt 0#4 0#4 15#5 [(15, 1#4)]).opcodeAtPc = 1#4 ∧
    (stateAt 0#4 0#4 15#5 [(15, 7#4)]).opcodeAtPc = 7#4 ∧ (stateAt 0#4 0#4 14#5 [(14, 8#4)]).opcodeAtPc = 8#4 ∧
    (stateAt 0#4 0#4 14#5 [(14, 12#4)]).opcodeAtPc = 12#4 ∧ (stateAt 0#4 0#4 14#5 [(14, 13#4)]).opcodeAtPc = 13#4 ∧
    (stateAt 0#4 0#4 14#5 [(14, 14#4)]).opcodeAtPc = 14#4 ∧ (stateAt 0#4 0#4 14#5 [(14, 15#4)]).opcodeAtPc = 15#4 ∧
    (lastCell .fault 8#4).opcodeAtPc = 8#4 ∧ (lastCell .readZero 15#4).opcodeAtPc = 15#4 := by decide
theorem test_witness_OperandFetchBeyondMemoryFaults :
    (lastCell .fault 8#4).status = .running ∧ (lastCell .fault 8#4).pc.toNat = 15 ∧
      8 ≤ (lastCell .fault 8#4).opcodeAtPc.toNat ∧ (lastCell .fault 8#4).oobPolicy = .fault := by decide
theorem test_witness_OperandFetchBeyondMemoryReadsZero :
    ∀ op ∈ [8#4, 9#4, 10#4, 11#4, 12#4, 13#4, 14#4, 15#4], (lastCell .readZero op).status = .running ∧
      (lastCell .readZero op).pc.toNat = 15 ∧ (lastCell .readZero op).oobPolicy = .readZero ∧
      (lastCell .readZero op).opcodeAtPc = op := by decide
theorem test_witness_RunEndsOnlyByOpcodeZeroOrFault :
    State.reset.status = .running ∧ step State.reset = .next (stepped State.reset) := ⟨rfl, rfl⟩
theorem test_witness_StoppedBlockChangesNothing :
    (stepped State.reset).status = .halted ∧ (stepped (lastCell .fault 15#4)).status = .faulted := by decide
/-- A step that changes r0, and one that changes r1. -/
theorem test_witness_RegistersHaveTheListedWriters :
    step (stateAt 0#4 0#4 0#5 [(0, 3#4)]) = .next (stepped (stateAt 0#4 0#4 0#5 [(0, 3#4)])) ∧
      (stepped (stateAt 0#4 0#4 0#5 [(0, 3#4)])).r0 ≠ 0#4 ∧
      step (stateAt 0#4 0#4 0#5 [(0, 4#4)]) = .next (stepped (stateAt 0#4 0#4 0#5 [(0, 4#4)])) ∧
      (stepped (stateAt 0#4 0#4 0#5 [(0, 4#4)])).r1 ≠ 0#4 := ⟨rfl, by decide, rfl, by decide⟩
/-- A store's step; it is also a step for the statements about memory, the trace and the policy. -/
theorem test_witness_MemoryIsWrittenByStoresOnly :
    step (stateAt 7#4 0#4 14#5 [(14, 11#4), (15, 4#4)]) = .next (stepped (stateAt 7#4 0#4 14#5 [(14, 11#4), (15, 4#4)])) := rfl
theorem test_witness_OnlyBellAndPrintEmit :
    step (stateAt 0#4 0#4 14#5 [(14, 8#4), (15, 4#4)]) = .next (stepped (stateAt 0#4 0#4 14#5 [(14, 8#4), (15, 4#4)])) := rfl
theorem test_witness_StepKeepsThePolicy :
    step (lastCell .readZero 8#4) = .next (stepped (lastCell .readZero 8#4)) := rfl
/-- The three clauses for STORE0, at the highest address each allows. -/
theorem test_witness_NextStepRunsWhatAStoreWrote :
    (stateAt 7#4 0#4 13#5 [(13, 11#4), (14, 15#4)]).standsAt 11#4 ∧
      (stateAt 7#4 0#4 13#5 [(13, 11#4), (14, 15#4)]).operandAtPc.toNat = 13 + 2 ∧ (7#4 : Nibble).toNat < 8 ∧
    (stateAt 8#4 0#4 12#5 [(12, 11#4), (13, 14#4)]).standsAt 11#4 ∧
      (stateAt 8#4 0#4 12#5 [(12, 11#4), (13, 14#4)]).operandAtPc.toNat = 12 + 2 ∧ 8 ≤ (8#4 : Nibble).toNat ∧
    (stateAt 5#4 0#4 12#5 [(12, 11#4), (13, 15#4), (14, 8#4)]).standsAt 11#4 ∧
      (stateAt 5#4 0#4 12#5 [(12, 11#4), (13, 15#4), (14, 8#4)]).operandAtPc.toNat = 12 + 3 ∧
      8 ≤ ((stateAt 5#4 0#4 12#5 [(12, 11#4), (13, 15#4), (14, 8#4)]).mem.readCell (12 + 2)).toNat := by decide
theorem test_witness_StoreToItselfCompletesAsFetched :
    (stateAt 0#4 1#4 14#5 [(14, 12#4), (15, 14#4)]).standsAt 12#4 ∧
      (stateAt 0#4 1#4 14#5 [(14, 12#4), (15, 14#4)]).operandAtPc.toNat = 14 ∧
    (stateAt 0#4 1#4 14#5 [(14, 12#4), (15, 15#4)]).standsAt 12#4 ∧
      (stateAt 0#4 1#4 14#5 [(14, 12#4), (15, 15#4)]).operandAtPc.toNat = 14 + 1 := by decide
theorem test_witness_ReadZeroMachineNeverFaults :
    (lastCell .readZero 8#4).oobPolicy = .readZero ∧ (lastCell .readZero 8#4).Safe := by decide
theorem test_witness_StepKeepsInv :
    (stateAt 7#4 0#4 2#5 [(2, 11#4), (3, 4#4)]).Inv ∧
      step (stateAt 7#4 0#4 2#5 [(2, 11#4), (3, 4#4)]) = .next (stepped (stateAt 7#4 0#4 2#5 [(2, 11#4), (3, 4#4)])) :=
  ⟨⟨by decide, by decide, by decide, by decide⟩, rfl⟩
theorem test_witness_CanonicalMemoriesAreEqualData :
    Memory.wf [(0, 1#4), (15, 2#4)] = true ∧
      ∀ addr : Nat, Memory.readCell [(0, 1#4), (15, 2#4)] addr = Memory.readCell [(0, 1#4), (15, 2#4)] addr :=
  ⟨by decide, fun _ => rfl⟩
theorem test_witness_ResetLeavesTheStatedValues :
    (stepped State.reset).oobPolicy = State.reset.oobPolicy ∧ stepped State.reset ≠ State.reset ∧ 15 < 16 := by decide
/-- The states that `oneCellRule` asks for, in the last cell, for the opcodes of the one-cell instructions. -/
theorem test_witness_oneCellRule :
    ∀ op ∈ [0#4, 1#4, 2#4, 3#4, 4#4, 5#4, 6#4, 7#4], (lastCell .fault op).standsAt op := by decide
/-- The states that `twoCellRule` asks for, at address 14, for the opcodes of the two-cell instructions. -/
theorem test_witness_twoCellRule :
    ∀ op ∈ [8#4, 9#4, 10#4, 11#4, 12#4, 13#4, 14#4, 15#4],
      (stateAt 0#4 0#4 14#5 [(14, op), (15, 9#4)]).standsAt op ∧ (stateAt 0#4 0#4 14#5 [(14, op), (15, 9#4)]).pc.toNat ≤ 14 := by
  decide
/-- The states that `lastCellRule` asks for, under each policy. -/
theorem test_witness_lastCellRule :
    ∀ op ∈ [8#4, 9#4, 10#4, 11#4, 12#4, 13#4, 14#4, 15#4],
      (lastCell .fault op).standsAt op ∧ (lastCell .fault op).pc = 15#5 ∧ (lastCell .fault op).oobPolicy = .fault ∧
      (lastCell .readZero op).standsAt op ∧ (lastCell .readZero op).pc = 15#5 ∧
      (lastCell .readZero op).oobPolicy = .readZero := by decide
theorem test_witness_StoreResults_wf : (stateAt 7#4 0#4 2#5 [(2, 11#4), (3, 4#4)]).mem.wf = true := by decide
theorem test_witness_LoaderBuildsEveryImage :
    loadTokens ['3', ' ', '8'] = .ok [3#4, 8#4] ∧ (List.replicate 16 15#4 : List Nibble).length ≤ 16 := ⟨rfl, by decide⟩
theorem test_witness_SeventeenthTokenIsProgramTooLarge :
    (List.replicate 16 0#4 : List Nibble).length = 16 ∧ ['9', '9'] ≠ [] ∧ (∀ c ∈ ['9', '9'], isDigit c = true) ∧
      ∀ c ∈ [' ', '1'].head?, isDigit c = false := ⟨rfl, List.cons_ne_nil _ _, by simp [isDigit], by simp [isDigit]⟩
theorem test_witness_TrailingSeparatorsAddNothing : ∀ c ∈ [';', ' ', 'x'], isDigit c = false := by simp [isDigit]
/-- The sixteen tokens of program P5 of 95_test_vectors.md: JMP 15, and a JMP with no operand cell in cell 15. -/
def lastCellJmp : List Nibble :=
  [13#4, 15#4, 0#4, 0#4, 0#4, 0#4, 0#4, 0#4, 0#4, 0#4, 0#4, 0#4, 0#4, 0#4, 0#4, 13#4]

/-- A failing load; a run that has halted; a run that has not ended; and a run of one step more than the fault allows. -/
theorem test_witness_InvocationResult :
    loadInvocation [none] [] = .error .cannotOpenInput ∧
    loadInvocation [] ['0'] = .ok (imageOfTokens [0#4]) ∧
    Host.Core.run Sys2Proof.core 1 (State.resetWith .fault (imageOfTokens [0#4])) =
      .next (stepped (State.resetWith .fault (imageOfTokens [0#4]))) ∧
    (stepped (State.resetWith .fault (imageOfTokens [0#4]))).status = .halted ∧
    loadInvocation [] ['7'] = .ok (imageOfTokens [7#4]) ∧
    Host.Core.run Sys2Proof.core 1 (State.resetWith .fault (imageOfTokens [7#4])) =
      .next (stepped (State.resetWith .fault (imageOfTokens [7#4]))) ∧
    (stepped (State.resetWith .fault (imageOfTokens [7#4]))).status = .running ∧
    loadInvocation [some (textOfTokens lastCellJmp)] [] = .ok (imageOfTokens lastCellJmp) ∧
    Host.Core.run Sys2Proof.core 3 (State.resetWith .fault (imageOfTokens lastCellJmp)) =
      .fault (.operandFetchOutOfRange 16#5) :=
  ⟨rfl, rfl, rfl, rfl, rfl, rfl, rfl, rfl, rfl⟩

end Sys2Proof.Tests
end

section
/-! PROOFS. The policy is a parameter of the machine (00_scope.md R4; log entry 1): the fetch phases hand on the value they
find, the instruction's effect keeps it, and so does every step. -/

namespace Sys2Proof.Machine

/-- The state the fetch phases leave, whether they dispatch an instruction or raise the fault. -/
def Fetched.state : Fetched → State
  | .execute _ t => t
  | .operandOutOfRange t => t

@[simp] theorem Fetched.state_execute (i : Instr) (t : State) : (Fetched.execute i t).state = t := rfl
@[simp] theorem Fetched.state_operandOutOfRange (t : State) : (Fetched.operandOutOfRange t).state = t := rfl

/-- Fetching moves ip only, so the policy is the one before it (R70 to R72). -/
theorem fetch_state_oobPolicy (s : State) : (fetch s).state.oobPolicy = s.oobPolicy := by
  rcases fetch_cases s with ⟨-, hf⟩ | ⟨-, -, hf⟩ | ⟨-, -, hf⟩ | ⟨-, -, -, hf⟩ | ⟨-, -, -, hf⟩ <;> simp [hf]

theorem exec_oobPolicy {i : Instr} {s t : State} (h : exec i s = .next t) : t.oobPolicy = s.oobPolicy := by
  obtain ⟨u, hu, hpolicy, -⟩ := exec_cases i s
  cases hu.symm.trans h
  exact hpolicy

theorem step_oobPolicy {s t : State} (h : step s = .next t) : t.oobPolicy = s.oobPolicy := by
  have hfetch := fetch_state_oobPolicy s
  rcases step_cases s with ⟨-, i, u, hf, hstep⟩ | ⟨-, u, hf, hstep⟩ | ⟨-, hstep⟩ | ⟨-, hstep⟩ <;> rw [hstep] at h
  · rw [hf] at hfetch
    exact (exec_oobPolicy h).trans hfetch
  · rw [hf] at hfetch
    cases h
    exact hfetch
  · cases h
    rfl
  · cases h -- a FAULTED block answers no next state (log entry 4)

/-- Settles O19, from what a step can do (`step_cases`): the fetch and the effect each keep the policy. -/
theorem stepKeepsThePolicy : Obligations.StepKeepsThePolicy := fun _ _ => step_oobPolicy

end Sys2Proof.Machine
end

section
/-! PROOFS. The state of the block over one step (10_state.md): the invariant, how ip moves (R14), which instructions write a
register (R11), that a stopped block is held (R19), and that the form of memory is canonical (log entry 2). -/

namespace Sys2Proof.Machine

/-! ### The opcode and the operand of an instruction

The cells that `encode` gives let one read off an instruction what R14 and R11 say by opcode. -/

/-- The opcode of an instruction, the first cell of its encoding (R52). -/
def opcodeOf (i : Instr) : Nibble := (encode i).headD 0#4

/-- The operand of an instruction, the second cell of its encoding; 0 where there is none (R53). -/
def operandOf (i : Instr) : Nibble := (encode i).getD 1 0#4

@[simp] theorem opcodeOf_decodeCells (op v : Nibble) : opcodeOf (decodeCells op v) = op := by
  revert op v
  decide

theorem operandOf_decodeCells (op v : Nibble) (h : 8 ≤ op.toNat) : operandOf (decodeCells op v) = v := by
  revert h
  revert op v
  decide

/-- The opcode is that of a jump whose condition on r0 holds (R111 to R113). -/
abbrev jumpTaken (op r0 : Nibble) : Prop := op = 13#4 ∨ (op = 14#4 ∧ r0 = 0#4) ∨ (op = 15#4 ∧ r0 ≠ 0#4)

/-- Below opcode 13 there is no jump. -/
theorem not_jumpTaken_of_le (op r0 : Nibble) (h : op.toNat ≤ 12) : ¬ jumpTaken op r0 := by
  rintro (rfl | ⟨rfl, -⟩ | ⟨rfl, -⟩) <;> exact absurd h (by decide)

/-- The opcodes of the instructions that write a register (R11). -/
def writersOf : Reg → List Nibble
  | .r0 => [1#4, 2#4, 3#4, 5#4, 9#4]
  | .r1 => [4#4, 6#4, 10#4]

/-! ### What an instruction's effect does to ip, status, a register and memory -/

theorem exec_pc {i : Instr} {s t : State} (h : exec i s = .next t) :
    t.pc = if jumpTaken (opcodeOf i) s.r0 then (operandOf i).setWidth 5 else s.pc := by
  obtain ⟨u, hu, -, -, hpc, -⟩ := exec_cases i s
  cases hu.symm.trans h
  rw [hpc]
  cases i with
  | jmp a | jz a | jnz a => simp [jumpTaken, opcodeOf, operandOf, encode]
  | _ => simp [jumpTaken, opcodeOf, encode]

theorem exec_status {i : Instr} {s t : State} (h : exec i s = .next t) :
    t.status = if opcodeOf i = 0#4 then .halted else s.status := by
  obtain ⟨u, hu, -, hstatus, -⟩ := exec_cases i s
  cases hu.symm.trans h
  rw [hstatus]
  cases i <;> simp [opcodeOf, encode]

/-- An instruction that R11 does not list as a writer of the register leaves it as it is. -/
theorem exec_readReg_of_not_writer {i : Instr} {s t : State} (r : Reg) (h : exec i s = .next t)
    (hop : opcodeOf i ∉ writersOf r) : t.readReg r = s.readReg r := by
  obtain ⟨u, hu, -, -, -, -, -, hr0, hr1⟩ := exec_cases i s
  cases hu.symm.trans h
  cases r with
  | r0 =>
    rw [State.readReg_r0, hr0]
    cases i with
    | add | sub | inc0 | dec0 | load0 a => simp [opcodeOf, encode, writersOf] at hop
    | _ => rfl
  | r1 =>
    rw [State.readReg_r1, hr1]
    cases i with
    | inc1 | dec1 | load1 a => simp [opcodeOf, encode, writersOf] at hop
    | _ => rfl

/-- Memory keeps its canonical form: only a store writes it, and to a cell below 16. -/
theorem exec_mem_wf {i : Instr} {s t : State} (h : exec i s = .next t) (hwf : s.mem.wf = true) : t.mem.wf = true := by
  obtain ⟨u, hu, -, -, -, hmem, -⟩ := exec_cases i s
  cases hu.symm.trans h
  rw [hmem]
  cases i with
  | store0 a | store1 a => exact Memory.wf_writeCell _ _ _ a.isLt hwf
  | _ => exact hwf

/-- A jump's target is a cell of memory (R110), so ip can leave memory only in the fetch. -/
theorem exec_pc_eq_or_le {i : Instr} {s t : State} (h : exec i s = .next t) : t.pc = s.pc ∨ t.pc.toNat ≤ 15 := by
  rw [exec_pc h]
  split
  · have htarget : ((operandOf i).setWidth 5).toNat = (operandOf i).toNat := jumpTarget_toNat (operandOf i)
    exact .inr (by omega)
  · exact .inl rfl

/-! ### The step, by run status and by where ip stands -/

theorem step_of_halted (s : State) (h : s.status = .halted) : step s = .next s := by
  simp [step, h, State.heldHalted]

theorem step_of_faulted (s : State) (h : s.status = .faulted) : step s = .fault (.operandFetchOutOfRange s.pc) := by
  simp [step, h, State.stoppedFaulted]

section
variable (s : State) (hr : s.status = .running)
include hr

/-- The implicit halt (R71). -/
theorem step_beyondMemory (hpc : 16 ≤ s.pc.toNat) : step s = exec .halt s := by
  rcases step_running_cases s hr with ⟨_, hs⟩ | ⟨_, -, hs⟩ | ⟨_, -, hs⟩ | ⟨_, -, -, hs⟩ | ⟨_, -, -, hs⟩
  · exact hs
  all_goals omega

/-- An opcode below 8, in every cell (R72). -/
theorem step_oneCell (hpc : s.pc.toNat ≤ 15) (hop : s.opcodeAtPc.toNat < 8) :
    step s = exec (decodeCells s.opcodeAtPc 0#4) (s.setPc (s.pc + 1#5)) := by
  rcases step_running_cases s hr with ⟨_, hs⟩ | ⟨-, _, hs⟩ | ⟨-, _, hs⟩ | ⟨-, _, -, hs⟩ | ⟨-, _, -, hs⟩
  on_goal 2 => exact hs
  all_goals omega

/-- An opcode of 8 or more that has its operand cell (R72). -/
theorem step_twoCell (hpc : s.pc.toNat ≤ 14) (hop : 8 ≤ s.opcodeAtPc.toNat) :
    step s = exec (decodeCells s.opcodeAtPc s.operandAtPc) (s.setPc (s.pc + 2#5)) := by
  rcases step_running_cases s hr with ⟨_, hs⟩ | ⟨-, _, hs⟩ | ⟨-, _, hs⟩ | ⟨_, -, -, hs⟩ | ⟨_, -, -, hs⟩
  on_goal 3 => exact hs
  all_goals omega

/-- An opcode of 8 or more in the last cell under `fault` (R121). -/
theorem step_lastCell_fault (hpc : s.pc.toNat = 15) (hop : 8 ≤ s.opcodeAtPc.toNat) (hp : s.oobPolicy = .fault) :
    step s = .next ((s.setPc 16#5).setStatus .faulted) := by
  rcases step_running_cases s hr with ⟨_, hs⟩ | ⟨-, _, hs⟩ | ⟨_, -, hs⟩ | ⟨-, -, -, hs⟩ | ⟨-, -, hz, hs⟩
  on_goal 4 => exact hs
  on_goal 4 => exact absurd (hp.symm.trans hz) (by decide)
  all_goals omega

/-- An opcode of 8 or more in the last cell under `readZero` (R122). -/
theorem step_lastCell_readZero (hpc : s.pc.toNat = 15) (hop : 8 ≤ s.opcodeAtPc.toNat) (hp : s.oobPolicy = .readZero) :
    step s = exec (decodeCells s.opcodeAtPc 0#4) (s.setPc 17#5) := by
  rcases step_running_cases s hr with ⟨_, hs⟩ | ⟨-, _, hs⟩ | ⟨_, -, hs⟩ | ⟨-, -, hf, hs⟩ | ⟨-, -, -, hs⟩
  on_goal 5 => exact hs
  on_goal 4 => exact absurd (hp.symm.trans hf) (by decide)
  all_goals omega

theorem step_isNext_of_running : ∃ t, step s = .next t := by
  have hexec (i : Instr) (u : State) : ∃ t, exec i u = .next t := (exec_cases i u).imp fun _ h => h.1
  rcases step_running_cases s hr with ⟨-, hs⟩ | ⟨-, -, hs⟩ | ⟨-, -, hs⟩ | ⟨-, -, -, hs⟩ | ⟨-, -, -, hs⟩ <;> rw [hs]
  · exact hexec _ _
  · exact hexec _ _
  · exact hexec _ _
  · exact ⟨_, rfl⟩
  · exact hexec _ _

end

/-! ### The invariant -/

/-- ip may stand anywhere the policy allows: 17 is reached under `readZero` only (R15, R122). -/
theorem State.Inv.setPc {s : State} (hinv : s.Inv) (hr : s.status = .running) (p : Pc) (hp : p.toNat ≤ 17)
    (hpf : s.oobPolicy = .fault → p.toNat ≤ 16) : (s.setPc p).Inv where
  memWf := hinv.memWf
  pcLe := hp
  pcLeFault := hpf
  faultedAt hf := absurd (hr.symm.trans hf) (by decide)

/-- The effect of an instruction dispatched in RUNNING keeps the invariant. -/
theorem State.Inv.of_exec {i : Instr} {s t : State} (hinv : s.Inv) (hr : s.status = .running) (h : exec i s = .next t) :
    t.Inv where
  memWf := exec_mem_wf h hinv.memWf
  pcLe := by
    have hle := hinv.pcLe
    rcases exec_pc_eq_or_le h with hpc | hpc
    · rwa [hpc]
    · omega
  pcLeFault hp := by
    have hle := hinv.pcLeFault ((exec_oobPolicy h).symm.trans hp)
    rcases exec_pc_eq_or_le h with hpc | hpc
    · rwa [hpc]
    · omega
  faultedAt hf := by
    rw [exec_status h, hr] at hf
    split at hf <;> cases hf

theorem State.Inv.of_step_running {s t : State} (hinv : s.Inv) (hr : s.status = .running) (h : step s = .next t) : t.Inv := by
  rcases step_running_cases s hr with ⟨-, hs⟩ | ⟨hpc, -, hs⟩ | ⟨hpc, -, hs⟩ | ⟨-, -, hp, hs⟩ | ⟨-, -, hp, hs⟩ <;>
    rw [hs] at h
  · exact hinv.of_exec hr h
  · have hle : (s.pc + 1#5).toNat ≤ 16 := by bv_omega
    exact (hinv.setPc hr _ (by omega) fun _ => hle).of_exec hr h
  · have hle : (s.pc + 2#5).toNat ≤ 16 := by bv_omega
    exact (hinv.setPc hr _ (by omega) fun _ => hle).of_exec hr h
  · cases h
    exact ⟨hinv.memWf, by simp, by simp, fun _ => ⟨hp, rfl⟩⟩
  · exact (hinv.setPc hr 17#5 (by decide) fun hf => absurd (hf.symm.trans hp) (by decide)).of_exec hr h

/-- Settles O20, by run status: in RUNNING the fetch and the effect each keep the invariant, HALTED is held, and FAULTED
answers no next state. -/
theorem stepKeepsInv : Obligations.StepKeepsInv := by
  intro s t hinv h
  cases hs : s.status with
  | running => exact hinv.of_step_running hs h
  | halted =>
    rw [step_of_halted s hs] at h
    cases h
    exact hinv
  | faulted =>
    rw [step_of_faulted s hs] at h
    cases h

/-- Settles O21, field by field. -/
theorem invAtReset : Obligations.InvAtReset where
  memWf := State.wf_reset
  pcLe := by decide
  pcLeFault _ := by decide
  faultedAt h := absurd h (by decide)

/-! ### How a step moves ip (R14) -/

/-- ip and status after the effect of an opcode, dispatched with the fall-through address `p` in ip. -/
theorem exec_decodeCells_pc_status {op v : Nibble} {p : Pc} {s t : State} (hr : s.status = .running)
    (h : exec (decodeCells op v) (s.setPc p) = .next t) :
    t.pc = (if jumpTaken op s.r0 then (operandOf (decodeCells op v)).setWidth 5 else p) ∧
      t.status = if op = 0#4 then .halted else .running := by
  have hpc := exec_pc h
  have hstatus := exec_status h
  rw [opcodeOf_decodeCells] at hpc hstatus
  exact ⟨hpc, hstatus.trans (by rw [State.setPc_status, hr])⟩

/-- An opcode of 8 or more run with the operand `v` and the fall-through address `p`: ip becomes one of the two, and the
block stays RUNNING. -/
theorem exec_twoCell_pc_status {op v : Nibble} {p : Pc} {s t : State} (hr : s.status = .running) (hop : 8 ≤ op.toNat)
    (h : exec (decodeCells op v) (s.setPc p) = .next t) :
    t.pc.toNat = (if jumpTaken op s.r0 then v.toNat else p.toNat) ∧ t.status = .running := by
  obtain ⟨hpc, hstatus⟩ := exec_decodeCells_pc_status hr h
  have hne : op ≠ 0#4 := by bv_omega
  rw [if_neg hne] at hstatus
  rw [operandOf_decodeCells op v hop] at hpc
  refine ⟨?_, hstatus⟩
  rw [hpc]
  split
  · exact jumpTarget_toNat v
  · rfl

section
variable {s t : State} (hr : s.status = .running) (h : step s = .next t)
include hr h

theorem step_beyondMemory_pc_status (hpc : 16 ≤ s.pc.toNat) : t.pc = s.pc ∧ t.status = .halted := by
  rw [step_beyondMemory s hr hpc] at h
  exact ⟨exec_pc h, exec_status h⟩

theorem step_oneCell_pc_status (hpc : s.pc.toNat ≤ 15) (hop : s.opcodeAtPc.toNat < 8) :
    t.pc.toNat = s.pc.toNat + 1 ∧ t.status = if s.opcodeAtPc = 0#4 then .halted else .running := by
  rw [step_oneCell s hr hpc hop] at h
  obtain ⟨hpc', hstatus⟩ := exec_decodeCells_pc_status hr h
  rw [if_neg (not_jumpTaken_of_le _ _ (by omega))] at hpc'
  refine ⟨?_, hstatus⟩
  rw [hpc']
  bv_omega

theorem step_twoCell_pc_status (hpc : s.pc.toNat ≤ 14) (hop : 8 ≤ s.opcodeAtPc.toNat) :
    t.pc.toNat = (if jumpTaken s.opcodeAtPc s.r0 then s.operandAtPc.toNat else s.pc.toNat + 2) ∧
      t.status = .running := by
  rw [step_twoCell s hr hpc hop] at h
  obtain ⟨hpc', hstatus⟩ := exec_twoCell_pc_status hr hop h
  have hadd : (s.pc + 2#5).toNat = s.pc.toNat + 2 := by bv_omega
  exact ⟨by rw [hpc', hadd], hstatus⟩

theorem step_lastCell_readZero_pc_status (hpc : s.pc.toNat = 15) (hop : 8 ≤ s.opcodeAtPc.toNat)
    (hp : s.oobPolicy = .readZero) :
    t.pc.toNat = (if jumpTaken s.opcodeAtPc s.r0 then 0 else 17) ∧ t.status = .running := by
  rw [step_lastCell_readZero s hr hpc hop hp] at h
  exact exec_twoCell_pc_status hr hop h

end

/-- Settles O8, row by row of R14's table; a conditional jump's row says which of its two addresses `jumpTaken` selects. -/
theorem ipAfterEveryStep : Obligations.IpAfterEveryStep := by
  intro s hr
  obtain ⟨t, h⟩ := step_isNext_of_running s hr
  refine ⟨t, h, ?beyondMemory, ?halt, ?oneCell, ?twoCell, ?jmp, ?jz, ?jnz, ?lastCellFault, ?lastCellReadZero⟩
  case beyondMemory => exact step_beyondMemory_pc_status hr h
  case halt =>
    intro hpc hop
    simpa [hop] using step_oneCell_pc_status hr h hpc (by simp [hop])
  case oneCell =>
    intro hpc hpos hlt
    have hne : s.opcodeAtPc ≠ 0#4 := by bv_omega
    simpa [hne] using step_oneCell_pc_status hr h hpc (by omega)
  case twoCell =>
    intro hpc hge hle
    simpa only [if_neg (not_jumpTaken_of_le _ s.r0 hle)] using step_twoCell_pc_status hr h hpc hge
  case jmp | jz | jnz =>
    intro hpc hop
    simpa [hop, jumpTaken] using step_twoCell_pc_status hr h hpc (by simp [hop])
  case lastCellFault =>
    intro hpc hge hp
    rw [step_lastCell_fault s hr hpc hge hp] at h
    cases h
    exact ⟨rfl, rfl⟩
  case lastCellReadZero =>
    intro hpc hge hp
    obtain ⟨hpc', hstatus⟩ := step_lastCell_readZero_pc_status hr h hpc hge hp
    refine ⟨hstatus, ?_⟩
    split
    · rwa [if_neg (not_jumpTaken_of_le _ _ ‹_›)] at hpc'
    · exact hpc'

/-! ### A stopped block (R19) -/

/-- A run whose first step answers a next state goes on from there. -/
theorem run_succ_of_step {s t : State} (h : step s = .next t) (n : Nat) :
    Host.Core.run core (n + 1) s = Host.Core.run core n t := by
  have hstep : core.step s = .next t := h
  simp only [Host.Core.run, hstep]

theorem run_of_halted (s : State) (hs : s.status = .halted) (n : Nat) : Host.Core.run core n s = .next s := by
  induction n with
  | zero => rfl
  | succ n ih => exact (run_succ_of_step (step_of_halted s hs) n).trans ih

/-- Settles O12: a run from HALTED by induction on its length, a step in FAULTED by the step's own equation. -/
theorem stoppedBlockChangesNothing : Obligations.StoppedBlockChangesNothing :=
  ⟨fun s n hs => run_of_halted s hs n, step_of_faulted⟩

/-! ### The writers of a register (R11) -/

@[simp] theorem readReg_setPc (s : State) (p : Pc) (r : Reg) : (s.setPc p).readReg r = s.readReg r := by
  cases r <;> rfl

@[simp] theorem readReg_setStatus (s : State) (st : RunStatus) (r : Reg) :
    (s.setStatus st).readReg r = s.readReg r := by
  cases r <;> rfl

theorem opcode_mem_writersOf_of_exec {op v : Nibble} {p : Pc} {s t : State} {r : Reg}
    (h : exec (decodeCells op v) (s.setPc p) = .next t) (hne : t.readReg r ≠ s.readReg r) : op ∈ writersOf r := by
  by_contra hop
  rw [← opcodeOf_decodeCells op v] at hop
  exact hne ((exec_readReg_of_not_writer r h hop).trans (readReg_setPc s p r))

/-- A step that changes a register fetched one of its writers from a cell. -/
theorem step_readReg_ne {s t : State} {r : Reg} (h : step s = .next t) (hne : t.readReg r ≠ s.readReg r) :
    s.status = .running ∧ s.pc.toNat ≤ 15 ∧ s.opcodeAtPc ∈ writersOf r := by
  cases hs : s.status with
  | running =>
    refine ⟨rfl, ?_⟩
    rcases step_running_cases s hs with ⟨-, hx⟩ | ⟨hpc, -, hx⟩ | ⟨hpc, -, hx⟩ | ⟨-, -, -, hx⟩ | ⟨hpc, -, -, hx⟩ <;>
      rw [hx] at h
    · exact absurd (exec_readReg_of_not_writer r h (by cases r <;> decide)) hne
    · exact ⟨hpc, opcode_mem_writersOf_of_exec h hne⟩
    · exact ⟨by omega, opcode_mem_writersOf_of_exec h hne⟩
    · cases h
      simp at hne -- the fault writes no register (R121)
    · exact ⟨by omega, opcode_mem_writersOf_of_exec h hne⟩
  | halted =>
    rw [step_of_halted s hs] at h
    cases h
    exact absurd rfl hne
  | faulted =>
    rw [step_of_faulted s hs] at h
    cases h

/-- Settles O13, by one lemma for both registers. -/
theorem registersHaveTheListedWriters : Obligations.RegistersHaveTheListedWriters := fun _ _ h =>
  ⟨step_readReg_ne (r := .r0) h, step_readReg_ne (r := .r1) h⟩

/-! ### The form of memory is canonical (log entry 2) -/

/-- Below its first address a canonical memory lists nothing. -/
theorem Memory.readCell_of_lt_wfFrom (m : Memory) (lo a : Nat) (h : Memory.wfFrom lo m = true) (ha : a < lo) :
    m.readCell a = 0#4 := by
  induction m generalizing lo with
  | nil => rfl
  | cons c rest ih =>
    obtain ⟨c, v⟩ := c
    obtain ⟨hle, -, -, hrest⟩ := (Memory.wfFrom_cons ..).mp h
    rw [Memory.readCell, if_neg (by omega)]
    exact ih (c + 1) hrest (by omega)

/-- A memory that reads as one listing cell `a` first cannot begin above `a`: it would read 0 there. -/
theorem Memory.not_wfFrom_of_readCell_eq {a : Nat} {v : Nibble} {rest n : Memory} (hv : v ≠ 0#4)
    (heq : ∀ addr : Nat, Memory.readCell ((a, v) :: rest) addr = n.readCell addr) : ¬ Memory.wfFrom (a + 1) n = true := by
  intro hn
  have hread := heq a
  rw [Memory.readCell_of_lt_wfFrom n (a + 1) a hn (by omega), Memory.readCell, if_pos rfl] at hread
  exact hv hread

theorem Memory.eq_of_readCell_eq (m n : Memory) (lo : Nat) (hm : Memory.wfFrom lo m = true)
    (hn : Memory.wfFrom lo n = true) (heq : ∀ addr : Nat, m.readCell addr = n.readCell addr) : m = n := by
  induction m generalizing n lo with
  | nil =>
    cases n with
    | nil => rfl
    | cons d rest =>
      obtain ⟨b, w⟩ := d
      obtain ⟨-, -, hw, -⟩ := (Memory.wfFrom_cons ..).mp hn
      exact absurd rfl (Memory.not_wfFrom_of_readCell_eq hw fun addr => (heq addr).symm)
  | cons c rest ih =>
    obtain ⟨a, v⟩ := c
    obtain ⟨hlo, ha, hv, hrest⟩ := (Memory.wfFrom_cons ..).mp hm
    cases n with
    | nil => exact absurd rfl (Memory.not_wfFrom_of_readCell_eq hv heq)
    | cons d rest' =>
      obtain ⟨b, w⟩ := d
      obtain ⟨hlo', hb, hw, hrest'⟩ := (Memory.wfFrom_cons ..).mp hn
      have hba : b ≤ a := by
        by_contra hab
        exact Memory.not_wfFrom_of_readCell_eq hv heq ((Memory.wfFrom_cons ..).mpr ⟨by omega, hb, hw, hrest'⟩)
      have hab : a ≤ b := by
        by_contra hba
        exact Memory.not_wfFrom_of_readCell_eq hw (fun addr => (heq addr).symm)
          ((Memory.wfFrom_cons ..).mpr ⟨by omega, ha, hv, hrest⟩)
      obtain rfl : a = b := by omega
      obtain rfl : v = w := by simpa [Memory.readCell] using heq a
      have htail : ∀ addr : Nat, Memory.readCell rest addr = Memory.readCell rest' addr := by
        intro addr
        by_cases hadd : a = addr
        · subst hadd
          rw [Memory.readCell_of_lt_wfFrom rest (a + 1) a hrest (by omega),
            Memory.readCell_of_lt_wfFrom rest' (a + 1) a hrest' (by omega)]
        · simpa [Memory.readCell, hadd] using heq addr
      rw [ih rest' (a + 1) hrest hrest' htail]

/-- Settles O23, by induction along both lists: their first cells agree, and below a list's first cell it reads 0. -/
theorem canonicalMemoriesAreEqualData : Obligations.CanonicalMemoriesAreEqualData := fun m n hm hn heq =>
  Memory.eq_of_readCell_eq m n 0 hm hn heq

end Sys2Proof.Machine
end

section
/-! PROOFS. Memory over one step (20_memory.md): a store writes the one cell it names and no other step writes memory (R35,
R39), the next fetch reads what a store wrote (R41), and a store to its own cells completes as fetched (R42). -/

namespace Sys2Proof.Machine

/-! ### What a step does to memory -/

/-- The opcode of the STORE that writes a register to memory (R103, R104). -/
def storeOpcode : Reg → Nibble
  | .r0 => 11#4
  | .r1 => 12#4

/-- The opcode is that of a STORE. -/
abbrev isStore (op : Nibble) : Prop := op = 11#4 ∨ op = 12#4

theorem not_isStore_of_lt (op : Nibble) (h : op.toNat < 8) : ¬ isStore op := by
  rintro (rfl | rfl) <;> exact absurd h (by decide)

/-- Only a STORE writes memory, its register to the cell that its operand names (R103, R104). -/
theorem exec_mem_readCell {i : Instr} {s t : State} (h : exec i s = .next t) (addr : Nat) :
    t.mem.readCell addr =
      if isStore (opcodeOf i) ∧ addr = (operandOf i).toNat then (if opcodeOf i = 11#4 then s.r0 else s.r1)
      else s.mem.readCell addr := by
  obtain ⟨u, hu, -, -, -, hmem, -⟩ := exec_cases i s
  cases hu.symm.trans h
  rw [hmem]
  cases i with
  | store0 a | store1 a => simp [isStore, opcodeOf, operandOf, encode, Memory.readCell_writeCell, eq_comm (a := addr)]
  | _ => simp [isStore, opcodeOf, encode]

theorem exec_mem_readCell_of_not_isStore {i : Instr} {s t : State} (h : exec i s = .next t)
    (hop : ¬ isStore (opcodeOf i)) (addr : Nat) : t.mem.readCell addr = s.mem.readCell addr := by
  rw [exec_mem_readCell h, if_neg fun hstore => hop hstore.1]

/-- An opcode of 8 or more, run with the operand `v`. -/
theorem exec_twoCell_mem_readCell {op v : Nibble} {p : Pc} {s t : State} (hop : 8 ≤ op.toNat)
    (h : exec (decodeCells op v) (s.setPc p) = .next t) (addr : Nat) :
    t.mem.readCell addr =
      if isStore op ∧ addr = v.toNat then (if op = 11#4 then s.r0 else s.r1) else s.mem.readCell addr := by
  have hread := exec_mem_readCell h addr
  rwa [opcodeOf_decodeCells, operandOf_decodeCells op v hop] at hread

/-- Settles O14, by where ip stands: with an operand cell the store's address is that cell's content, in the last cell it is
the 0 of `readZero`, and a step that runs no store writes no memory. -/
theorem memoryIsWrittenByStoresOnly : Obligations.MemoryIsWrittenByStoresOnly := by
  intro s t h addr
  cases hs : s.status with
  | running =>
    rcases step_running_cases s hs with
      ⟨hpc, hx⟩ | ⟨-, hop, hx⟩ | ⟨hpc, hop, hx⟩ | ⟨hpc, -, hp, hx⟩ | ⟨hpc, hop, hp, hx⟩ <;> rw [hx] at h
    · rw [exec_mem_readCell_of_not_isStore h (by decide), if_neg (by omega)]
    · have hstore := not_isStore_of_lt _ hop
      rw [exec_mem_readCell_of_not_isStore h (by rwa [opcodeOf_decodeCells]), if_neg fun hc => hstore hc.2.1]
      rfl
    · rw [exec_twoCell_mem_readCell hop h]
      have hne : s.pc.toNat ≠ 15 := by omega
      simp [hpc, hne]
    · cases h
      simp [hpc, hp] -- the fault writes no memory (R121)
    · rw [exec_twoCell_mem_readCell hop h]
      simp [hpc, hp]
  | halted =>
    rw [step_of_halted s hs] at h
    cases h
    simp
  | faulted =>
    rw [step_of_faulted s hs] at h
    cases h

/-! ### The state a store leaves -/

/-- The state that the STORE of a register at ip leaves: ip past it, and the register in the cell its operand names. -/
def State.afterStore (s : State) (r : Reg) : State := (s.setPc (s.pc + 2#5)).memWrite s.operandAtPc (s.readReg r)

@[simp] theorem State.afterStore_pc (s : State) (r : Reg) : (s.afterStore r).pc = s.pc + 2#5 := rfl
@[simp] theorem State.afterStore_status (s : State) (r : Reg) : (s.afterStore r).status = s.status := rfl

theorem State.afterStore_pc_toNat (s : State) (r : Reg) (h : s.pc.toNat ≤ 14) :
    (s.afterStore r).pc.toNat = s.pc.toNat + 2 := by
  rw [State.afterStore_pc]
  bv_omega

theorem State.afterStore_eq (s : State) (r : Reg) :
    s.afterStore r = { s with mem := (s.afterStore r).mem, pc := s.pc + 2#5 } := rfl

theorem State.afterStore_readCell (s : State) (r : Reg) (addr : Nat) :
    (s.afterStore r).mem.readCell addr = if s.operandAtPc.toNat = addr then s.readReg r else s.mem.readCell addr :=
  Memory.readCell_writeCell s.mem s.operandAtPc.toNat addr (s.readReg r)

theorem State.afterStore_opcodeAtPc (s : State) (r : Reg) (h : s.pc.toNat ≤ 14) :
    (s.afterStore r).opcodeAtPc = (s.afterStore r).mem.readCell (s.pc.toNat + 2) := by
  rw [State.opcodeAtPc, State.afterStore_pc_toNat s r h]

theorem State.afterStore_operandAtPc (s : State) (r : Reg) (h : s.pc.toNat ≤ 14) :
    (s.afterStore r).operandAtPc = (s.afterStore r).mem.readCell (s.pc.toNat + 3) := by
  rw [State.operandAtPc, State.afterStore_pc_toNat s r h]

theorem State.afterStore_readCell_same {s : State} {addr : Nat} (r : Reg) (h : s.operandAtPc.toNat = addr) :
    (s.afterStore r).mem.readCell addr = s.readReg r := by
  rw [State.afterStore_readCell, if_pos h]

theorem State.afterStore_readCell_ne {s : State} {addr : Nat} (r : Reg) (h : s.operandAtPc.toNat ≠ addr) :
    (s.afterStore r).mem.readCell addr = s.mem.readCell addr := by
  rw [State.afterStore_readCell, if_neg h]

theorem exec_storeOpcode (r : Reg) (a : Nibble) (s : State) :
    exec (decodeCells (storeOpcode r) a) s = .next (s.memWrite a (s.readReg r)) := by
  cases r <;> rfl

/-- A STORE that has its operand cell leaves `afterStore`: the address is the one fetched, whatever cell it names (R42). -/
theorem step_store {s : State} {r : Reg} (h : s.standsAt (storeOpcode r)) (hpc : s.pc.toNat ≤ 14) :
    step s = .next (s.afterStore r) := by
  obtain ⟨hr, -, hop⟩ := h
  have hge : 8 ≤ (storeOpcode r).toNat := by cases r <;> decide
  rw [step_twoCell s hr hpc (by rwa [hop]), hop, exec_storeOpcode, readReg_setPc]
  rfl

/-! ### The step after a store (R41) -/

section
variable {s : State} {r : Reg} {op : Nibble} (hr : s.status = .running)
  (hop : (s.afterStore r).mem.readCell (s.pc.toNat + 2) = op)
include hr hop

/-- The next instruction in line has one cell: its opcode is read from the memory the store has left. -/
theorem step_afterStore_oneCell (hpc : s.pc.toNat ≤ 13) (hlt : op.toNat < 8) :
    step (s.afterStore r) = exec (decodeCells op 0#4) ((s.afterStore r).setPc (s.pc + 3#5)) := by
  have hip := s.afterStore_pc_toNat r (by omega)
  have hopcode : (s.afterStore r).opcodeAtPc = op := (s.afterStore_opcodeAtPc r (by omega)).trans hop
  rw [step_oneCell (s.afterStore r) hr (by omega) (by rwa [hopcode]), hopcode, State.afterStore_pc, BitVec.add_assoc]
  rfl

/-- The next instruction in line has two cells: both are read from the memory the store has left. -/
theorem step_afterStore_twoCell {v : Nibble} (hpc : s.pc.toNat ≤ 12) (hge : 8 ≤ op.toNat)
    (hv : (s.afterStore r).mem.readCell (s.pc.toNat + 3) = v) :
    step (s.afterStore r) = exec (decodeCells op v) ((s.afterStore r).setPc (s.pc + 4#5)) := by
  have hip := s.afterStore_pc_toNat r (by omega)
  have hopcode : (s.afterStore r).opcodeAtPc = op := (s.afterStore_opcodeAtPc r (by omega)).trans hop
  have hoperand : (s.afterStore r).operandAtPc = v := (s.afterStore_operandAtPc r (by omega)).trans hv
  rw [step_twoCell (s.afterStore r) hr (by omega) (by rwa [hopcode]), hopcode, hoperand, State.afterStore_pc,
    BitVec.add_assoc]
  rfl

end

/-- Settles O16, from the state the store leaves: in each clause one of the two cells the next fetch reads is the cell
written, and the other is not. -/
theorem nextStepRunsWhatAStoreWrote : Obligations.NextStepRunsWhatAStoreWrote := by
  intro s r hat
  have hstands : s.standsAt (storeOpcode r) := by cases r <;> exact hat
  have hr : s.status = .running := hstands.1
  have hstep (hpc : s.pc.toNat ≤ 13) :
      step s = .next (s.afterStore r) ∧ (s.afterStore r).pc.toNat = s.pc.toNat + 2 :=
    ⟨step_store hstands (by omega), s.afterStore_pc_toNat r (by omega)⟩
  refine ⟨?oneCell, ?opcodeCell, ?operandCell⟩
  case oneCell =>
    intro hpc haddr hlt
    obtain ⟨hstore, hip⟩ := hstep hpc
    exact ⟨_, hstore, hip, step_afterStore_oneCell hr (State.afterStore_readCell_same r haddr) hpc hlt⟩
  case opcodeCell =>
    intro hpc haddr hge
    obtain ⟨hstore, hip⟩ := hstep (by omega)
    exact ⟨_, hstore, hip, step_afterStore_twoCell hr (State.afterStore_readCell_same r haddr) hpc hge
      (State.afterStore_readCell_ne r (by omega))⟩
  case operandCell =>
    intro hpc haddr hge
    obtain ⟨hstore, hip⟩ := hstep (by omega)
    exact ⟨_, hstore, hip, step_afterStore_twoCell hr (State.afterStore_readCell_ne r (by omega)) hpc hge
      (State.afterStore_readCell_same r haddr)⟩

/-! ### A store to its own cells (R42) -/

/-- Settles O17: the operand is fetched before the write, so a store to its own cells is a store like any other. -/
theorem storeToItselfCompletesAsFetched : Obligations.StoreToItselfCompletesAsFetched := by
  intro s r hat hpc _
  have hstands : s.standsAt (storeOpcode r) := by cases r <;> exact hat
  exact ⟨s.afterStore r, step_store hstands hpc, s.afterStore_eq r, State.afterStore_readCell_same r rfl,
    fun _ hne => State.afterStore_readCell_ne r hne.symm⟩

end Sys2Proof.Machine
end

section
/-! PROOFS. The encoding (30_encoding.md): decoding and encoding are inverse to each other, decoding is total (R56), and a
word of the opcode table stored at ip is what the next step runs (log entry 8). -/

namespace Sys2Proof

/-! ### What the decoder answers, by the opcode cell (R50, R55) -/

theorem decode_oneCell (op : Nibble) (rest : List Nibble) (h : op.toNat < 8) :
    decode (op :: rest) = .ok (decodeCells op 0#4, rest) := by
  have htakes : takesOperand op = false := by
    simpa [takesOperand] using h
  simp only [decode, htakes]

theorem decode_twoCell (op v : Nibble) (rest : List Nibble) (h : 8 ≤ op.toNat) :
    decode (op :: v :: rest) = .ok (decodeCells op v, rest) := by
  simp only [decode, (Machine.takesOperand_iff op).mpr h]

theorem decode_noOperandCell (op : Nibble) (h : 8 ≤ op.toNat) : decode [op] = .error (.noOperandCell op) := by
  simp only [decode, (Machine.takesOperand_iff op).mpr h]

/-- Everything a list that decodes can be: an opcode below 8 before the rest, or an opcode of 8 or more with its operand. -/
theorem decode_ok_cases {cells rest : List Nibble} {i : Instr} (h : decode cells = .ok (i, rest)) :
    (∃ op, op.toNat < 8 ∧ cells = op :: rest ∧ i = decodeCells op 0#4) ∨
    (∃ op v, 8 ≤ op.toNat ∧ cells = op :: v :: rest ∧ i = decodeCells op v) := by
  cases cells with
  | nil => cases h
  | cons op tail =>
    rcases Nat.lt_or_ge op.toNat 8 with hlt | hge
    · rw [decode_oneCell op tail hlt] at h
      cases h
      exact .inl ⟨op, hlt, rfl, rfl⟩
    · cases tail with
      | nil =>
        rw [decode_noOperandCell op hge] at h
        cases h
      | cons v tail =>
        rw [decode_twoCell op v tail hge] at h
        cases h
        exact .inr ⟨op, v, hge, rfl, rfl⟩

/-! ### The two round trips -/

theorem encode_decodeCells_oneCell (op v : Nibble) (h : op.toNat < 8) : encode (decodeCells op v) = [op] := by
  revert h
  revert op v
  decide

theorem encode_decodeCells_twoCell (op v : Nibble) (h : 8 ≤ op.toNat) : encode (decodeCells op v) = [op, v] := by
  revert h
  revert op v
  decide

theorem decode_encode (i : Instr) (rest : List Nibble) : decode (encode i ++ rest) = .ok (i, rest) := by
  cases i <;> rfl

/-- Settles O1: what decodes is an opcode with the cells it takes, which are those that `encode` gives back; and each
instruction's own cells decode to it. -/
theorem decodeAndEncodeAreInverse : Obligations.DecodeAndEncodeAreInverse := by
  intro cells rest i
  constructor
  · intro h
    rcases decode_ok_cases h with ⟨op, hlt, rfl, rfl⟩ | ⟨op, v, hge, rfl, rfl⟩
    · rw [encode_decodeCells_oneCell op 0#4 hlt]
      rfl
    · rw [encode_decodeCells_twoCell op v hge]
      rfl
  · rintro rfl
    exact decode_encode i rest

/-- Settles O2, by the decoder's equation for each kind of list. -/
theorem everyOpcodeAndOperandDecodes : Obligations.EveryOpcodeAndOperandDecodes :=
  ⟨fun op rest h => ⟨_, decode_oneCell op rest h⟩, fun op v rest h => ⟨_, decode_twoCell op v rest h⟩,
    decode_noOperandCell, rfl⟩

/-- Settles O3: each word is the encoding of its instruction. -/
theorem sampleWordsDecode : Obligations.SampleWordsDecode :=
  ⟨decode_encode .halt [9#4], decode_encode .sub [], decode_encode .dec1 [], decode_encode (.print 13#4) [],
    decode_encode (.load1 15#4) [], decode_encode (.store1 4#4) [], decode_encode (.jz 9#4) []⟩

/-! ### The words of the opcode table (log entry 8) -/

/-- A format N opcode ignores the operand it is given (R50). -/
theorem decodeCells_oneCell (op v : Nibble) (h : op.toNat < 8) : decodeCells op v = decodeCells op 0#4 := by
  revert h
  revert op v
  decide

/-- Two cells always hold a whole instruction. -/
theorem decode_pair (first second : Nibble) :
    ∃ rest, decode [first, second] = .ok (decodeCells first second, rest) := by
  rcases Nat.lt_or_ge first.toNat 8 with hlt | hge
  · rw [decodeCells_oneCell first second hlt]
    exact ⟨_, decode_oneCell first [second] hlt⟩
  · exact ⟨_, decode_twoCell first second [] hge⟩

/-- A table word that decodes stands for two cells, and its instruction is the one they hold. -/
theorem tableCells_of_decodeTableWord {nbits w : Nat} {i : Instr} (h : decodeTableWord nbits w = some i) :
    ∃ first second, tableCells nbits w = some (first, second) ∧ i = decodeCells first second := by
  unfold decodeTableWord at h
  cases hcells : tableCells nbits w with
  | none => simp [hcells] at h
  | some cells =>
    obtain ⟨first, second⟩ := cells
    obtain ⟨rest, hdecode⟩ := decode_pair first second
    simp only [hcells, hdecode, Option.some.injEq] at h
    exact ⟨first, second, rfl, h.symm⟩

end Sys2Proof

namespace Sys2Proof.Machine

theorem withFetchWord_of_tableCells {nbits w : Nat} {first second : Nibble} (s : State)
    (h : tableCells nbits w = some (first, second)) : s.withFetchWord nbits w = s.placeAtPc first second := by
  simp only [State.withFetchWord, h]

section
variable (s : State) (first second : Nibble)

@[simp] theorem placeAtPc_status : (s.placeAtPc first second).status = .running := rfl

variable (hpc : s.pc.toNat ≤ 14)
include hpc

theorem placeAtPc_pc : (s.placeAtPc first second).pc = s.pc := by
  rw [placeAtPc_eq s first second hpc]

theorem placeAtPc_opcodeAtPc : (s.placeAtPc first second).opcodeAtPc = first := by
  rw [placeAtPc_eq s first second hpc]
  simp [State.opcodeAtPc, Memory.readCell_writeCell]

theorem placeAtPc_operandAtPc : (s.placeAtPc first second).operandAtPc = second := by
  rw [placeAtPc_eq s first second hpc]
  simp [State.operandAtPc, Memory.readCell_writeCell]

/-- The step after two cells are placed at ip runs the instruction they hold, with ip past its own cells only (R72). -/
theorem step_placeAtPc :
    step (s.placeAtPc first second) = exec (decodeCells first second)
      ((s.placeAtPc first second).setPc (s.pc + BitVec.ofNat 5 (decodeCells first second).lengthCells)) := by
  have hip := placeAtPc_pc s first second hpc
  have hopcode := placeAtPc_opcodeAtPc s first second hpc
  have hoperand := placeAtPc_operandAtPc s first second hpc
  rcases Nat.lt_or_ge first.toNat 8 with hlt | hge
  · rw [step_oneCell _ (placeAtPc_status s first second) (by rw [hip]; omega) (by rwa [hopcode]), hopcode, hip,
      lengthCells_decodeCells_one first second hlt, decodeCells_oneCell first second hlt]
  · rw [step_twoCell _ (placeAtPc_status s first second) (by rwa [hip]) (by rwa [hopcode]), hopcode, hoperand, hip,
      lengthCells_decodeCells_two first second hge]

end

/-- Settles O4: the word's two cells are placed at ip, and the next step fetches them. -/
theorem tableWordStoredAtPcIsRun : Obligations.TableWordStoredAtPcIsRun := by
  intro s nbits w i hpc hword
  obtain ⟨first, second, hcells, rfl⟩ := tableCells_of_decodeTableWord hword
  rw [withFetchWord_of_tableCells s hcells]
  exact step_placeAtPc s first second hpc

end Sys2Proof.Machine
end

section
/-! PROOFS. The step cycle and HALT (40_cycle_and_halt.md): the step runs the instruction that the cells at ip hold (R70,
R72), above cell 15 it is the implicit halt (R71), and HALT stops the run (R74). -/

namespace Sys2Proof

/-! ### Where an instruction fits (R30, R50, R53) -/

theorem Instr.lengthCells_eq_one_or_two (i : Instr) : i.lengthCells = 1 ∨ i.lengthCells = 2 := by
  cases i <;> simp [Instr.lengthCells]

theorem encode_length (i : Instr) : (encode i).length = i.lengthCells := by
  cases i <;> rfl

/-- The two checks of the place together: all the instruction's cells are cells of memory. -/
theorem Instr.wellFormedAt_iff (i : Instr) (addr : Nat) : i.wellFormedAt addr = true ↔ addr + i.lengthCells ≤ 16 := by
  have hlength := i.lengthCells_eq_one_or_two
  simp only [Instr.wellFormedAt, Instr.opcodeCellExists, Instr.operandCellExists, Machine.memCells_eq, Bool.and_eq_true,
    Bool.or_eq_true, decide_eq_true_eq]
  omega

end Sys2Proof

namespace Sys2Proof.Machine

/-! ### The cells from an address to cell 15 -/

/-- The first of the cells from `addr` is the one there, and the address is one of memory. -/
theorem cellsFrom_eq_cons {s : State} {addr : Nat} {v : Nibble} {rest : List Nibble}
    (h : s.cellsFrom addr = v :: rest) : addr ≤ 15 ∧ s.mem.readCell addr = v ∧ s.cellsFrom (addr + 1) = rest := by
  rcases Nat.lt_or_ge 15 addr with hout | hin
  · rw [cellsFrom_nil s addr hout] at h
    cases h
  · rw [cellsFrom_cons s addr hin] at h
    exact ⟨hin, List.cons.inj h⟩

/-- Cells that stand in memory from `addr` on are the first ones of those from `addr` to cell 15. -/
theorem cellsFrom_eq_append (s : State) (cells : List Nibble) (addr : Nat) (hfit : addr + cells.length ≤ 16)
    (hread : ∀ (k : Nat) (v : Nibble), cells[k]? = some v → s.mem.readCell (addr + k) = v) :
    s.cellsFrom addr = cells ++ s.cellsFrom (addr + cells.length) := by
  induction cells generalizing addr with
  | nil => rfl
  | cons c cells ih =>
    rw [List.length_cons] at hfit ⊢
    have hhead : s.mem.readCell addr = c := hread 0 c rfl
    have htail := ih (addr + 1) (by omega) fun k v hv => by
      rw [Nat.add_right_comm]
      exact hread (k + 1) v hv
    rw [cellsFrom_cons s addr (by omega), hhead, htail, Nat.add_right_comm, Nat.add_assoc]
    rfl

/-! ### The step runs what the cells at ip hold (R70, R72) -/

/-- Settles O5: the cells from ip begin with an opcode below 8, or with an opcode of 8 or more and its operand, and these
are the cells that the fetch reads. -/
theorem stepRunsTheDecodedInstruction : Obligations.StepRunsTheDecodedInstruction := by
  intro s i rest hr hdecode
  rw [Instr.wellFormedAt_iff]
  rcases decode_ok_cases hdecode with ⟨op, hlt, hcells, rfl⟩ | ⟨op, v, hge, hcells, rfl⟩
  · obtain ⟨hpc, rfl, -⟩ := cellsFrom_eq_cons hcells
    rw [lengthCells_decodeCells_one _ _ hlt]
    exact ⟨by omega, step_oneCell s hr hpc hlt⟩
  · obtain ⟨-, rfl, htail⟩ := cellsFrom_eq_cons hcells
    obtain ⟨hpc, rfl, -⟩ := cellsFrom_eq_cons htail
    rw [lengthCells_decodeCells_two _ _ hge]
    exact ⟨by omega, step_twoCell s hr (by omega) hge⟩

/-- Settles O6, through the decoder: the cells from ip are those of the instruction and then others, so they decode to it
(R50 to R54), and the step runs what they decode to. -/
theorem encodedInstructionInMemoryIsRun : Obligations.EncodedInstructionInMemoryIsRun := by
  intro s i hr hplace hread
  have hfit : s.pc.toNat + (encode i).length ≤ 16 := by
    rw [encode_length]
    exact (i.wellFormedAt_iff _).mp hplace
  have hdecode : decode (s.cellsFrom s.pc.toNat) = .ok (i, s.cellsFrom (s.pc.toNat + (encode i).length)) := by
    rw [cellsFrom_eq_append s (encode i) s.pc.toNat hfit hread]
    exact decode_encode i _
  exact (stepRunsTheDecodedInstruction s i _ hr hdecode).2

/-- Every format N opcode runs by the one rule, in every cell (R72). -/
theorem oneCellRule_decodeCells (op : Nibble) (h : op.toNat < 8) : oneCellRule op (decodeCells op 0#4) := by
  rintro s ⟨hr, hpc, rfl⟩
  exact step_oneCell s hr hpc h

/-! ### HALT, implicit and fetched (R71, R74) -/

/-- HALT's effect: the run status, and nothing else. -/
theorem exec_halt (s : State) : exec .halt s = .next (s.setStatus .halted) := rfl

/-- Settles O7: the implicit halt is HALT's effect with ip where it was. -/
theorem implicitHaltAboveCell15 : Obligations.ImplicitHaltAboveCell15 := fun s hr hpc =>
  (step_beyondMemory s hr hpc).trans (exec_halt s)

/-- Settles O27: the rule of the format N opcodes, the decoder's equation for them, and HALT's effect. -/
theorem haltStopsTheRun : Obligations.HaltStopsTheRun :=
  ⟨oneCellRule_decodeCells 0#4 (by decide), fun rest => decode_oneCell 0#4 rest (by decide),
    fun s => ⟨s.setStatus .halted, exec_halt s, rfl, rfl, fun _ => rfl⟩⟩

end Sys2Proof.Machine
end

section
/-! PROOFS. The arithmetic instructions (41_arithmetic.md): each adds an exact integer to one register and keeps the residue
modulo 16 (R80), and that residue is the result of 4-bit machine arithmetic (R88). -/

namespace Sys2Proof.Machine

/-! ### What each instruction adds, and to which register (R81 to R86) -/

theorem exec_add (s : State) : exec .add s = .next (addToReg .r0 s.r1.toNat s) := rfl
theorem exec_sub (s : State) : exec .sub s = .next (addToReg .r0 (-(s.r1.toNat : Int)) s) := rfl
theorem exec_inc0 (s : State) : exec .inc0 s = .next (addToReg .r0 1 s) := rfl
theorem exec_inc1 (s : State) : exec .inc1 s = .next (addToReg .r1 1 s) := rfl
theorem exec_dec0 (s : State) : exec .dec0 s = .next (addToReg .r0 (-1) s) := rfl
theorem exec_dec1 (s : State) : exec .dec1 s = .next (addToReg .r1 (-1) s) := rfl

/-- An instruction that adds `n` to a register: the register becomes the residue of the exact result, and nothing else
changes (R80, R87). -/
theorem exec_result_of_addToReg {i : Instr} {s : State} {d : Reg} {n : Int} (h : exec i s = .next (addToReg d n s)) :
    ∃ t, exec i s = .next t ∧ ((t.readReg d).toNat : Int) = ((s.readReg d).toNat + n) % 16 ∧
      t = s.writeReg d (t.readReg d) ∧ State.sameCells s t := by
  rw [addToReg_eq] at h
  cases d with
  | r0 => exact ⟨_, h, residue_toNat _, rfl, fun _ => rfl⟩
  | r1 => exact ⟨_, h, residue_toNat _, rfl, fun _ => rfl⟩

/-! ### The obligations on the six instructions

Each is the rule of the format N opcodes, the decoder's equation for them, and the instruction's addition. Where the exact
result is not negative the statement has it as a natural number. -/

/-- Settles O28, by the exact sum `r0 + r1`. -/
theorem addResult : Obligations.AddResult := by
  refine ⟨oneCellRule_decodeCells 1#4 (by decide), fun rest => decode_oneCell 1#4 rest (by decide), fun s => ?_⟩
  obtain ⟨t, hexec, hsum, hframe⟩ := exec_result_of_addToReg (exec_add s)
  simp only [State.readReg_r0] at hsum
  exact ⟨t, hexec, mod_cast hsum, hframe⟩

/-- Settles O29, by the exact sum `r0 + -r1`, which is the difference. -/
theorem subResult : Obligations.SubResult := by
  refine ⟨oneCellRule_decodeCells 2#4 (by decide), fun rest => decode_oneCell 2#4 rest (by decide), fun s => ?_⟩
  rw [Int.sub_eq_add_neg]
  exact exec_result_of_addToReg (exec_sub s)

/-- Settles O30, by the exact sum of the one register and 1. -/
theorem incrementResults : Obligations.IncrementResults := by
  refine ⟨oneCellRule_decodeCells 3#4 (by decide), oneCellRule_decodeCells 4#4 (by decide),
    fun rest => ⟨decode_oneCell 3#4 rest (by decide), decode_oneCell 4#4 rest (by decide)⟩, fun s => ?_, fun s => ?_⟩
  · obtain ⟨t, hexec, hsum, hframe⟩ := exec_result_of_addToReg (exec_inc0 s)
    simp only [State.readReg_r0] at hsum
    exact ⟨t, hexec, mod_cast hsum, hframe⟩
  · obtain ⟨t, hexec, hsum, hframe⟩ := exec_result_of_addToReg (exec_inc1 s)
    simp only [State.readReg_r1] at hsum
    exact ⟨t, hexec, mod_cast hsum, hframe⟩

/-- Settles O31, by the exact sum of the one register and -1. -/
theorem decrementResults : Obligations.DecrementResults :=
  ⟨oneCellRule_decodeCells 5#4 (by decide), oneCellRule_decodeCells 6#4 (by decide),
    fun rest => ⟨decode_oneCell 5#4 rest (by decide), decode_oneCell 6#4 rest (by decide)⟩,
    fun s => exec_result_of_addToReg (exec_dec0 s), fun s => exec_result_of_addToReg (exec_dec1 s)⟩

/-! ### The residue as a 4-bit word (R88) -/

/-- The residue is the low four bits of the two's-complement result. -/
theorem residue_eq_ofInt (n : Int) : residue n = BitVec.ofInt 4 n := by
  apply BitVec.eq_of_toNat_eq
  have hres := residue_toNat n
  rw [BitVec.toNat_ofInt]
  omega

/-- Carries out of the four bits are lost. -/
theorem residue_add_sixteen (n : Int) : residue (n + 16) = residue n := by
  simp only [residue, Int.add_emod_right]

theorem residue_add_toNat (p q : Nibble) : residue ((p.toNat : Int) + q.toNat) = p + q := by
  rw [residue_eq_ofInt, BitVec.ofInt_add]
  simp

theorem residue_sub_toNat (p q : Nibble) : residue ((p.toNat : Int) - q.toNat) = p - q := by
  rw [residue_eq_ofInt, Int.sub_eq_add_neg, BitVec.ofInt_add, BitVec.ofInt_neg, BitVec.sub_eq_add_neg]
  simp

/-- Settles O32: the residue is the 4-bit result, the complement and 1 are the 4-bit negation, and adding 16 - q instead of
-q adds 16 once more. -/
theorem residueIsFourBitArithmetic : Obligations.ResidueIsFourBitArithmetic := by
  intro p q
  have hcomplement : p - q = p + ~~~q + 1#4 := by
    rw [BitVec.sub_eq_add_neg, BitVec.neg_eq_not_add, BitVec.add_assoc]
  have hsixteen : (p.toNat : Int) + (16 - q.toNat) = (p.toNat - q.toNat) + 16 := by omega
  refine ⟨residue_add_toNat p q, residue_sub_toNat p q, (residue_sub_toNat p q).trans hcomplement, ?_⟩
  rw [hsixteen, residue_add_sixteen]

end Sys2Proof.Machine
end

section
/-! PROOFS. Output (42_output.md): the trace grows by the event of the BELL or PRINT a step executes and by nothing else
(R90 to R92), and the host writes a PRINT as a decimal numeral and one space (R93). -/

namespace Sys2Proof.Machine

/-! ### The rules of the format A opcodes (R72, R121, R122) -/

/-- Every format A opcode runs by the one rule below cell 15 (R72). -/
theorem twoCellRule_decodeCells (op : Nibble) (h : 8 ≤ op.toNat) : twoCellRule op (decodeCells op) := by
  rintro s ⟨hr, -, rfl⟩ hpc
  exact step_twoCell s hr hpc h

/-- Every format A opcode in cell 15 faults, or runs with operand 0 (R121, R122). -/
theorem lastCellRule_decodeCells (op : Nibble) (h : 8 ≤ op.toNat) : lastCellRule op (decodeCells op 0#4) := by
  rintro s ⟨hr, -, rfl⟩ hpc
  have hlast : s.pc.toNat = 15 := by rw [hpc]; rfl
  exact ⟨step_lastCell_fault s hr hlast h, step_lastCell_readZero s hr hlast h⟩

/-! ### What an instruction emits (R90 to R92) -/

/-- The events that one execution of an instruction appends to the trace. -/
def emitted : Instr → List Event
  | .bell => [.bell]
  | .print v => [.print v]
  | _ => []

theorem exec_trace {i : Instr} {s t : State} (h : exec i s = .next t) : t.trace = s.trace ++ emitted i := by
  obtain ⟨u, hu, -, -, -, -, htrace, -⟩ := exec_cases i s
  cases hu.symm.trans h
  rw [htrace]
  cases i with
  | bell | print v => rfl
  | _ => exact (List.append_nil s.trace).symm

/-- Opcode 7 is the BELL and opcode 8 the PRINT of its operand; the other opcodes emit nothing (R54, R92). -/
theorem emitted_decodeCells (op v : Nibble) :
    emitted (decodeCells op v) = if op = 7#4 then [.bell] else if op = 8#4 then [.print v] else [] := by
  revert op v
  decide

theorem exec_decodeCells_trace {op v : Nibble} {p : Pc} {s t : State}
    (h : exec (decodeCells op v) (s.setPc p) = .next t) :
    t.trace = s.trace ++ if op = 7#4 then [.bell] else if op = 8#4 then [.print v] else [] := by
  rw [exec_trace h, emitted_decodeCells, State.setPc_trace]

/-- BELL's effect: its event, and nothing else. -/
theorem exec_bell (s : State) : exec .bell s = .next (s.emit .bell) := rfl

/-- PRINT's effect: the event of the operand itself, and nothing else. -/
theorem exec_print (v : Nibble) (s : State) : exec (.print v) s = .next (s.emit (.print v)) := rfl

/-! ### The obligations on the block -/

/-- Settles O15, by where ip stands: with an opcode fetched the step emits what that opcode emits, and the implicit halt,
the fault and a stopped block emit nothing. -/
theorem onlyBellAndPrintEmit : Obligations.OnlyBellAndPrintEmit := by
  intro s t h
  cases hs : s.status with
  | running =>
    rcases step_running_cases s hs with
      ⟨hpc, hx⟩ | ⟨hpc, hop, hx⟩ | ⟨hpc, hop, hx⟩ | ⟨hpc, hop, hp, hx⟩ | ⟨hpc, hop, hp, hx⟩ <;> rw [hx] at h
    · rw [exec_trace h, if_neg (by omega), if_neg (by omega), if_neg (by omega)]
      rfl
    · have hne : s.opcodeAtPc ≠ 8#4 := by bv_omega
      rw [exec_decodeCells_trace h]
      simp [hpc, hne]
    · have hle : s.pc.toNat ≤ 15 := by omega
      have hne : s.pc.toNat ≠ 15 := by omega
      rw [exec_decodeCells_trace h]
      simp [hpc, hle, hne]
    · have hne : s.opcodeAtPc ≠ 7#4 := by bv_omega
      cases h
      simp [hpc, hne, hp] -- the fault emits nothing (R121)
    · rw [exec_decodeCells_trace h]
      simp [hpc, hp]
  | halted =>
    rw [step_of_halted s hs] at h
    cases h
    simp
  | faulted =>
    rw [step_of_faulted s hs] at h
    cases h

/-- Settles O33: the rule of the format N opcodes, the decoder's equation for them, and BELL's effect. -/
theorem bellEmitsOneBell : Obligations.BellEmitsOneBell :=
  ⟨oneCellRule_decodeCells 7#4 (by decide), fun rest => decode_oneCell 7#4 rest (by decide),
    fun s => ⟨s.emit .bell, exec_bell s, rfl, rfl, fun _ => rfl⟩⟩

/-- Settles O34: the two rules of the format A opcodes, the decoder's equation for them, and PRINT's effect. -/
theorem printEmitsItsOperand : Obligations.PrintEmitsItsOperand :=
  ⟨twoCellRule_decodeCells 8#4 (by decide), fun v rest => decode_twoCell 8#4 v rest (by decide),
    fun s v => ⟨s.emit (.print v), exec_print v s, rfl, rfl, fun _ => rfl⟩,
    lastCellRule_decodeCells 8#4 (by decide)⟩

/-! ### The numeral of a value (R93) -/

theorem digitChar_toNat {d : Nat} (h : d < 10) : (digitChar d).toNat = 48 + d := by
  have hvalid : (48 + d).isValidChar := .inl (by omega)
  rw [digitChar, Char.toNat_ofNat, if_pos hvalid]

theorem isDigit_digitChar {d : Nat} (h : d < 10) : isDigit (digitChar d) = true := by
  rw [isDigit, digitChar_toNat h, Bool.and_eq_true, decide_eq_true_eq, decide_eq_true_eq]
  omega

/-- A value below 10 is one digit; from 10 on, up to 15, its digits are 1 and the value less 10. -/
theorem decimalNumeral_cases (v : Nibble) :
    (v.toNat < 10 ∧ decimalNumeral v = [digitChar v.toNat]) ∨
    (10 ≤ v.toNat ∧ v.toNat - 10 < 10 ∧ decimalNumeral v = [digitChar 1, digitChar (v.toNat - 10)]) := by
  rcases Nat.lt_or_ge v.toNat 10 with hlt | hge
  · exact .inl ⟨hlt, if_pos hlt⟩
  · exact .inr ⟨hge, by omega, if_neg (by omega)⟩

theorem tokenValue_decimalNumeral (v : Nibble) : tokenValue (decimalNumeral v) = v.toNat := by
  rcases decimalNumeral_cases v with ⟨hlt, hv⟩ | ⟨hge, hlt, hv⟩
  · simp [hv, tokenValue, digitChar_toNat hlt]
  · simp only [hv, tokenValue, List.foldl_cons, List.foldl_nil, digitChar_toNat hlt, digitChar_toNat Nat.one_lt_ofNat]
    omega

theorem decimalNumeral_length (v : Nibble) : (decimalNumeral v).length = if v.toNat < 10 then 1 else 2 := by
  rw [decimalNumeral, apply_ite List.length]
  rfl

theorem isDigit_of_mem_decimalNumeral (v : Nibble) : ∀ c ∈ decimalNumeral v, isDigit c = true := by
  rcases decimalNumeral_cases v with ⟨hlt, hv⟩ | ⟨-, hlt, hv⟩
  · simp [hv, isDigit_digitChar hlt]
  · simp [hv, isDigit_digitChar hlt, isDigit_digitChar Nat.one_lt_ofNat]

/-- Settles O44, by the numeral's two forms, one digit below 10 and two from 10 on. -/
theorem printedNumeralReadsBack : Obligations.PrintedNumeralReadsBack := fun v =>
  ⟨tokenValue_decimalNumeral v, decimalNumeral_length v, isDigit_of_mem_decimalNumeral v, fun _ => rfl⟩

end Sys2Proof.Machine
end

section
/-! PROOFS. The load and store instructions (43_load_store.md): a load takes the content of the one cell its operand names
into one register (R101, R102), a store puts one register into that cell and leaves every other cell (R103, R104). -/

namespace Sys2Proof.Machine

/-! ### Loads -/

/-- LOAD0's effect: the load of r0. -/
theorem exec_load0 (a : Nibble) (s : State) : exec (.load0 a) s = .next (loadReg .r0 a s) := rfl

/-- LOAD1's effect: the load of r1. -/
theorem exec_load1 (a : Nibble) (s : State) : exec (.load1 a) s = .next (loadReg .r1 a s) := rfl

/-- An instruction that loads a register: the register becomes what the cell at the effective address reads as, and nothing
else changes (R100). -/
theorem exec_result_of_loadReg {i : Instr} {s : State} {d : Reg} {a : Nibble} (h : exec i s = .next (loadReg d a s)) :
    ∃ t, exec i s = .next t ∧ t.readReg d = s.mem.readCell (effectiveAddress a).toNat ∧
      t = s.writeReg d (t.readReg d) ∧ State.sameCells s t := by
  rw [loadReg_eq] at h
  cases d with
  | r0 => exact ⟨_, h, rfl, rfl, fun _ => rfl⟩
  | r1 => exact ⟨_, h, rfl, rfl, fun _ => rfl⟩

/-- Settles O35: the two rules of the format A opcodes, the decoder's equation for them, and the load of the one register. -/
theorem loadResults : Obligations.LoadResults :=
  ⟨twoCellRule_decodeCells 9#4 (by decide), twoCellRule_decodeCells 10#4 (by decide),
    fun a rest => ⟨decode_twoCell 9#4 a rest (by decide), decode_twoCell 10#4 a rest (by decide)⟩,
    fun s a => exec_result_of_loadReg (exec_load0 a s), fun s a => exec_result_of_loadReg (exec_load1 a s),
    lastCellRule_decodeCells 9#4 (by decide), lastCellRule_decodeCells 10#4 (by decide)⟩

/-! ### Stores -/

/-- STORE0's effect: the store of r0. -/
theorem exec_store0 (a : Nibble) (s : State) : exec (.store0 a) s = .next (storeReg .r0 a s) := rfl

/-- STORE1's effect: the store of r1. -/
theorem exec_store1 (a : Nibble) (s : State) : exec (.store1 a) s = .next (storeReg .r1 a s) := rfl

theorem storeReg_readCell (r : Reg) (a : Nibble) (s : State) (addr : Nat) :
    (storeReg r a s).mem.readCell addr =
      if (effectiveAddress a).toNat = addr then s.readReg r else s.mem.readCell addr :=
  Memory.readCell_writeCell s.mem (effectiveAddress a).toNat addr (s.readReg r)

/-- An instruction that stores a register: the cell at the effective address reads as the register, every other cell as
before, no other field changes (R100), and the memory keeps its canonical form (log entry 2). -/
theorem exec_result_of_storeReg {i : Instr} {s : State} {r : Reg} {a : Nibble} (h : exec i s = .next (storeReg r a s)) :
    ∃ t, exec i s = .next t ∧ t.mem.readCell (effectiveAddress a).toNat = s.readReg r ∧ t = { s with mem := t.mem } ∧
      State.sameCellsBut (effectiveAddress a).toNat s t ∧ (s.mem.wf = true → t.mem.wf = true) := by
  refine ⟨storeReg r a s, h, ?_, rfl, fun addr hne => ?_, exec_mem_wf h⟩
  · rw [storeReg_readCell, if_pos rfl]
  · rw [storeReg_readCell, if_neg hne.symm]

/-- Settles O36: the two rules of the format A opcodes, the decoder's equation for them, and the store of the one
register. -/
theorem storeResults : Obligations.StoreResults :=
  ⟨twoCellRule_decodeCells 11#4 (by decide), twoCellRule_decodeCells 12#4 (by decide),
    fun a rest => ⟨decode_twoCell 11#4 a rest (by decide), decode_twoCell 12#4 a rest (by decide)⟩,
    fun s a => exec_result_of_storeReg (exec_store0 a s), fun s a => exec_result_of_storeReg (exec_store1 a s),
    lastCellRule_decodeCells 11#4 (by decide), lastCellRule_decodeCells 12#4 (by decide)⟩

end Sys2Proof.Machine
end

section
/-! PROOFS. The jump instructions (44_jumps.md): the target is absolute and replaces ip where the jump is taken, ip keeps the
fall-through address where it is not, and nothing else changes (R110). -/

namespace Sys2Proof.Machine

/-! ### The condition of each jump (R111 to R113) -/

/-- JMP's effect: a jump that is always taken. -/
theorem exec_jmp (a : Nibble) (s : State) : exec (.jmp a) s = .next (jumpIf true a s) := rfl

/-- JZ's effect: a jump on r0 = 0. -/
theorem exec_jz (a : Nibble) (s : State) : exec (.jz a) s = .next (jumpIf s.r0IsZero a s) := rfl

/-- JNZ's effect: a jump on the inverted test. -/
theorem exec_jnz (a : Nibble) (s : State) : exec (.jnz a) s = .next (jumpIf (!s.r0IsZero) a s) := rfl

/-- JNZ's condition is r0 ≠ 0, the negation of JZ's (R113). -/
theorem not_r0IsZero_iff (s : State) : (!s.r0IsZero) = true ↔ s.r0 ≠ 0#4 := by
  rw [Bool.not_eq_true', ← Bool.not_eq_true, State.r0IsZero_iff]

/-! ### What a jump leaves -/

/-- An instruction that jumps on a condition: ip becomes the operand, zero-extended, or stays, and nothing else changes
(R110). -/
theorem exec_result_of_jumpIf {i : Instr} {s : State} {a : Nibble} {c : Bool} {taken : Prop} [Decidable taken]
    (h : exec i s = .next (jumpIf c a s)) (hc : c = true ↔ taken) :
    ∃ t, exec i s = .next t ∧ t.pc.toNat = (if taken then a.toNat else s.pc.toNat) ∧ t = { s with pc := t.pc } ∧
      State.sameCells s t := by
  rcases jumpIf_cases c a s with ⟨htrue, hjump⟩ | ⟨hfalse, hstay⟩
  · rw [hjump] at h
    rw [if_pos (hc.mp htrue)]
    exact ⟨_, h, jumpTarget_toNat a, rfl, fun _ => rfl⟩
  · rw [hstay] at h
    rw [if_neg fun htaken => Bool.eq_false_iff.mp hfalse (hc.mpr htaken)]
    exact ⟨_, h, rfl, rfl, fun _ => rfl⟩

/-! ### The obligations on the three jumps

Each is the two rules of the format A opcodes, the decoder's equation for them, and the jump on the instruction's
condition. -/

/-- Settles O37, by the jump whose condition always holds. -/
theorem jmpSetsIp : Obligations.JmpSetsIp :=
  ⟨twoCellRule_decodeCells 13#4 (by decide), fun a rest => decode_twoCell 13#4 a rest (by decide),
    fun s a => exec_result_of_jumpIf (exec_jmp a s) (iff_of_true rfl trivial),
    lastCellRule_decodeCells 13#4 (by decide)⟩

/-- Settles O38, by the jump on r0 = 0. -/
theorem jzJumpsWhenR0IsZero : Obligations.JzJumpsWhenR0IsZero :=
  ⟨twoCellRule_decodeCells 14#4 (by decide), fun a rest => decode_twoCell 14#4 a rest (by decide),
    fun s a => exec_result_of_jumpIf (exec_jz a s) s.r0IsZero_iff,
    lastCellRule_decodeCells 14#4 (by decide)⟩

/-- Settles O39, by the jump on r0 ≠ 0. -/
theorem jnzJumpsWhenR0IsNotZero : Obligations.JnzJumpsWhenR0IsNotZero :=
  ⟨twoCellRule_decodeCells 15#4 (by decide), fun a rest => decode_twoCell 15#4 a rest (by decide),
    fun s a => exec_result_of_jumpIf (exec_jnz a s) (not_r0IsZero_iff s),
    lastCellRule_decodeCells 15#4 (by decide)⟩

end Sys2Proof.Machine
end

section
/-! PROOFS. The one exception (60_exceptions.md): the operand fetch past cell 15 faults under `fault` (R121) and reads 0 under
`readZero` (R122), where FAULTED is out of reach. -/

namespace Sys2Proof.Machine

/-! ### Under `readZero` FAULTED is out of reach (R122) -/

/-- A property with which every state steps to a next state that has it too holds at the end of a run of any length. -/
theorem run_of_step_invariant (P : State → Prop) (hstep : ∀ s, P s → ∃ t, step s = .next t ∧ P t) (n : Nat) (s : State)
    (hs : P s) : ∃ t, Host.Core.run core n s = .next t ∧ P t := by
  induction n generalizing s with
  | zero => exact ⟨s, rfl, hs⟩
  | succ n ih =>
    obtain ⟨u, hsu, hu⟩ := hstep s hs
    rw [run_succ_of_step hsu]
    exact ih u hu

/-- A block that has not stopped with the fault has a next state: RUNNING steps, HALTED is held (log entry 3). -/
theorem step_isNext_of_safe (s : State) (hs : s.Safe) : ∃ t, step s = .next t := by
  cases hst : s.status with
  | running => exact step_isNext_of_running s hst
  | halted => exact ⟨s, step_of_halted s hst⟩
  | faulted => exact absurd hst hs

/-- No instruction's effect sets FAULTED: the fault is the operand fetch's (R121). -/
theorem exec_safe {i : Instr} {s t : State} (h : exec i s = .next t) (hs : s.Safe) : t.Safe := by
  unfold State.Safe
  rw [exec_status h]
  split
  · decide
  · exact hs

/-- A step sets FAULTED under the policy `fault` only. -/
theorem step_safe_of_readZero {s t : State} (hp : s.oobPolicy = .readZero) (hs : s.Safe) (h : step s = .next t) :
    t.Safe := by
  cases hst : s.status with
  | running =>
    rcases step_running_cases s hst with ⟨-, hx⟩ | ⟨-, -, hx⟩ | ⟨-, -, hx⟩ | ⟨-, -, hf, -⟩ | ⟨-, -, -, hx⟩
    on_goal 4 => exact absurd (hf.symm.trans hp) (by decide)
    all_goals
      rw [hx] at h
      exact exec_safe h hs
  | halted =>
    rw [step_of_halted s hst] at h
    cases h
    exact hs
  | faulted => exact absurd hst hs

/-- Settles O18: `readZero` and not FAULTED is a property that every step hands on, so a run of any length does. -/
theorem readZeroMachineNeverFaults : Obligations.ReadZeroMachineNeverFaults := by
  intro s n hp hs
  refine run_of_step_invariant (fun s => s.Safe ∧ s.oobPolicy = .readZero) ?_ n s ⟨hs, hp⟩
  rintro s ⟨hs, hp⟩
  obtain ⟨t, h⟩ := step_isNext_of_safe s hs
  exact ⟨t, h, step_safe_of_readZero hp hs h, (step_oobPolicy h).trans hp⟩

/-! ### The operand fetch past cell 15 (R121, R122) -/

/-- Settles O9: the step is the fault's, and the state it answers is FAULTED, which has no next state (log entry 4). -/
theorem operandFetchBeyondMemoryFaults : Obligations.OperandFetchBeyondMemoryFaults := by
  intro s hr hpc hop hp
  have hfault := step_lastCell_fault s hr hpc hop hp
  refine ⟨hfault, fun t ht u hu => ?_⟩
  cases hfault.symm.trans ht
  rw [step_of_faulted _ (State.setStatus_status ..)] at hu
  cases hu

/-- A jump as one write of ip: the target where the condition holds, the fall-through address where it does not (R110). -/
theorem jumpIf_eq_setPc {c : Bool} {taken : Prop} [Decidable taken] (hc : c = true ↔ taken) (a : Nibble) (s : State) :
    jumpIf c a s = s.setPc (if taken then jumpTarget a else s.pc) := by
  simp only [← hc]
  cases c <;> rfl

/-- Settles O10: the step is the instruction's effect with operand 0 and ip at 17, whichever of the eight it is. -/
theorem operandFetchBeyondMemoryReadsZero : Obligations.OperandFetchBeyondMemoryReadsZero := by
  intro s hr hpc hp
  have hstep (op : Nibble) (hge : 8 ≤ op.toNat) (hop : s.opcodeAtPc = op) :
      step s = exec (decodeCells op 0#4) (s.setPc 17#5) := by
    subst hop
    exact step_lastCell_readZero s hr hpc hge hp
  refine ⟨fun h => ?print, fun h => ?load0, fun h => ?load1, fun h => ?store0, fun h => ?store1, fun h => ?jmp,
    fun h => ?jz, fun h => ?jnz⟩
  case print => exact (hstep 8#4 (by decide) h).trans (exec_print _ _)
  case load0 => exact (hstep 9#4 (by decide) h).trans (exec_load0 _ _)
  case load1 => exact (hstep 10#4 (by decide) h).trans (exec_load1 _ _)
  case store0 => exact (hstep 11#4 (by decide) h).trans (exec_store0 _ _)
  case store1 => exact (hstep 12#4 (by decide) h).trans (exec_store1 _ _)
  case jmp => exact (hstep 13#4 (by decide) h).trans (exec_jmp _ _)
  case jz =>
    refine ((hstep 14#4 (by decide) h).trans (exec_jz _ _)).trans (congrArg _ ?_)
    exact jumpIf_eq_setPc (State.r0IsZero_iff _) 0#4 _
  case jnz =>
    refine ((hstep 15#4 (by decide) h).trans (exec_jnz _ _)).trans (congrArg _ ?_)
    exact jumpIf_eq_setPc (not_r0IsZero_iff _) 0#4 _

end Sys2Proof.Machine
end

section
/-! PROOFS. Reset and the first step (70_reset_and_hazards.md R140 to R143), and how a step ends the run (R154). -/

namespace Sys2Proof.Machine

/-! ### How a step ends the run (R154) -/

/-- An opcode that takes an operand is not HALT's. -/
theorem opcode_ne_zero {op : Nibble} (h : 8 ≤ op.toNat) : op ≠ 0#4 := by bv_omega

/-- Settles O11, by where ip stands and what its opcode cell holds; what takes an operand is not HALT. -/
theorem runEndsOnlyByOpcodeZeroOrFault : Obligations.RunEndsOnlyByOpcodeZeroOrFault := by
  intro s t hr h
  rcases step_running_cases s hr with ⟨hpc, -⟩ | ⟨hpc, hop, -⟩ | ⟨hpc, hop, -⟩ | ⟨hpc, hop, hp, hs⟩ | ⟨hpc, hop, hp, -⟩
  · obtain ⟨-, hstatus⟩ := step_beyondMemory_pc_status hr h hpc
    simp [hstatus, hpc, show s.pc.toNat ≠ 15 by omega]
  · obtain ⟨-, hstatus⟩ := step_oneCell_pc_status hr h hpc hop
    by_cases hzero : s.opcodeAtPc = 0#4
    · simp [hstatus, hzero]
    · simp [hstatus, hzero, show ¬ 16 ≤ s.pc.toNat by omega, hop]
  · obtain ⟨-, hstatus⟩ := step_twoCell_pc_status hr h hpc hop
    simp [hstatus, opcode_ne_zero hop, show ¬ 16 ≤ s.pc.toNat by omega, show s.pc.toNat ≠ 15 by omega]
  · cases hs.symm.trans h
    simp [hpc, hop, hp, opcode_ne_zero hop]
  · obtain ⟨-, hstatus⟩ := step_lastCell_readZero_pc_status hr h hpc hop hp
    simp [hstatus, hpc, hp, opcode_ne_zero hop]

/-! ### Reset (R140 to R142) -/

/-- Right after reset a cell reads as the image has it. -/
theorem State.resetWith_readCell (p : Config.OobOperandPolicy) (image : Image) (k : Nat) (h : k < 16) :
    (State.resetWith p image).mem.readCell k = image[k] := by
  have hread := Memory.readCell_ofCells image.toList 0 k
  rw [Nat.zero_add] at hread
  rw [State.resetWith_mem, hread]
  simp [h]

/-- The first opcode fetch reads cell 0 of the image. -/
theorem State.resetWith_opcodeAtPc (p : Config.OobOperandPolicy) (image : Image) :
    (State.resetWith p image).opcodeAtPc = image[0] :=
  State.resetWith_readCell p image 0 (by decide)

/-- Settles O22, field by field: only the memory depends on the image, and reset lists it in canonical form. -/
theorem invAfterResetWithAnyImage : Obligations.InvAfterResetWithAnyImage := fun p image =>
  { memWf := State.wf_resetWith p image
    pcLe := by simp
    pcLeFault := by simp
    faultedAt := by simp }

/-- Settles O24: of the state it is applied in, reset reads the policy alone. -/
theorem resetLeavesTheStatedValues : Obligations.ResetLeavesTheStatedValues := fun s image =>
  ⟨rfl, rfl, rfl, rfl, rfl, State.resetWith_readCell s.oobPolicy image,
    fun _ hp => congrArg (fun p => State.resetWith p image) hp⟩

/-- Settles O25: no cell of the all-zero image is listed, and an unlisted cell reads 0. -/
theorem resetIsTheAllZeroImage : Obligations.ResetIsTheAllZeroImage := ⟨rfl, fun _ => rfl⟩

/-- Settles O26: the block stands RUNNING at cell 0, where a step ends the run by opcode 0 only (O11). -/
theorem firstStepAfterResetIsTaken : Obligations.FirstStepAfterResetIsTaken := by
  intro p image
  have hr := State.resetWith_status p image
  obtain ⟨t, h⟩ := step_isNext_of_running _ hr
  obtain ⟨hhalted, hfaulted⟩ := runEndsOnlyByOpcodeZeroOrFault _ t hr h
  rw [State.resetWith_opcodeAtPc] at hhalted
  exact ⟨t, h, by simpa using hhalted, by simp [hfaulted]⟩

end Sys2Proof.Machine
end

section
/-! PROOFS. The Loader (70_reset_and_hazards.md R144 to R150), the host beside the block: its scan character by character,
then what it makes of a text of numerals and of any text. -/

namespace Sys2Proof.Machine

/-! ### The end of a token (R144, R145) -/

/-- With no pending digits nothing is appended. -/
@[simp] theorem flushToken_nil (cells : List Nibble) : flushToken cells [] = .ok cells := rfl

/-- The numeral of a value is appended as that value where a cell is left for it. -/
theorem flushToken_decimalNumeral (cells : List Nibble) (v : Nibble) (h : cells.length < 16) :
    flushToken cells (decimalNumeral v) = .ok (cells ++ [v]) := by
  have hne : decimalNumeral v ≠ [] := by
    rcases decimalNumeral_cases v with ⟨-, hv⟩ | ⟨-, -, hv⟩ <;> simp [hv]
  have hcheck : checkToken cells.length (v.toNat : Int) = none := by
    simp [checkToken, show ¬ 16 ≤ cells.length by omega, show ¬ (15 : Int) < v.toNat by omega]
  simp [flushToken, hne, tokenValue_decimalNumeral, hcheck]

/-- A pending token past the sixteenth is refused for its place, before its value is looked at (R145). -/
theorem flushToken_programTooLarge {cells : List Nibble} {buffer : List Char} (hfull : 16 ≤ cells.length)
    (hne : buffer ≠ []) : flushToken cells buffer = .error .programTooLarge := by
  simp [flushToken, checkToken, hne, hfull]

/-! ### The scan (R144, R146) -/

section
variable {c : Char} {rest : List Char} {cells : List Nibble} {buffer : List Char}

theorem scanText_cons_of_isDigit (hc : isDigit c = true) :
    scanText (c :: rest) cells buffer = scanText rest cells (buffer ++ [c]) := by
  simp [scanText, hc]

theorem scanText_separator_of_ok {cells' : List Nibble} (hc : isDigit c = false)
    (hf : flushToken cells buffer = .ok cells') : scanText (c :: rest) cells buffer = scanText rest cells' [] := by
  simp [scanText, hc, hf]

theorem scanText_separator_of_error {e : LoadError} (hc : isDigit c = false) (hf : flushToken cells buffer = .error e) :
    scanText (c :: rest) cells buffer = .error e := by
  simp [scanText, hc, hf]

end

/-- Numerals that find cells left for them are loaded as their values, and the scan goes on behind them. -/
theorem scanText_textOfTokens (tokens cells : List Nibble) (rest : List Char) (h : cells.length + tokens.length ≤ 16) :
    scanText (textOfTokens tokens ++ rest) cells [] = scanText rest (cells ++ tokens) [] := by
  induction tokens generalizing cells with
  | nil => simp [textOfTokens]
  | cons v tokens ih =>
    rw [List.length_cons] at h
    have hflush := flushToken_decimalNumeral cells v (by omega)
    calc scanText (textOfTokens (v :: tokens) ++ rest) cells []
        = scanText (decimalNumeral v ++ ' ' :: (textOfTokens tokens ++ rest)) cells [] := by simp [textOfTokens]
      _ = scanText (' ' :: (textOfTokens tokens ++ rest)) cells (decimalNumeral v) :=
          scanText_digits _ _ _ _ (isDigit_of_mem_decimalNumeral v)
      _ = scanText (textOfTokens tokens ++ rest) (cells ++ [v]) [] := scanText_separator_of_ok (by decide) hflush
      _ = scanText rest (cells ++ [v] ++ tokens) [] := ih _ (by simp; omega)
      _ = scanText rest (cells ++ v :: tokens) [] := by simp

/-- The scan from at most sixteen cells ends with at most sixteen, or with one of two errors. -/
theorem scanText_cases (text : List Char) (cells : List Nibble) (buffer : List Char) (h : cells.length ≤ 16) :
    (∃ t, scanText text cells buffer = .ok t ∧ t.length ≤ 16) ∨
    scanText text cells buffer = .error .programTooLarge ∨
    scanText text cells buffer = .error .instructionTooLarge := by
  induction text generalizing cells buffer with
  | nil => exact flushToken_cases cells buffer h
  | cons c rest ih =>
    cases hc : isDigit c with
    | true =>
      rw [scanText_cons_of_isDigit hc]
      exact ih cells _ h
    | false =>
      rcases flushToken_cases cells buffer h with ⟨cells', hf, hlen⟩ | hf | hf
      · rw [scanText_separator_of_ok hc hf]
        exact ih cells' [] hlen
      · exact .inr (.inl (scanText_separator_of_error hc hf))
      · exact .inr (.inr (scanText_separator_of_error hc hf))

/-- Separators alone do what the end of the stream does: they flush the pending token. -/
theorem scanText_separators (separators : List Char) (cells : List Nibble) (buffer : List Char)
    (h : ∀ c ∈ separators, isDigit c = false) : scanText separators cells buffer = flushToken cells buffer := by
  induction separators generalizing cells buffer with
  | nil => rfl
  | cons c rest ih =>
    obtain ⟨hc, hrest⟩ := List.forall_mem_cons.mp h
    cases hf : flushToken cells buffer with
    | ok cells' => rw [scanText_separator_of_ok hc hf, ih _ _ hrest, flushToken_nil]
    | error e => exact scanText_separator_of_error hc hf

theorem scanText_append_separators (text separators : List Char) (cells : List Nibble) (buffer : List Char)
    (h : ∀ c ∈ separators, isDigit c = false) :
    scanText (text ++ separators) cells buffer = scanText text cells buffer := by
  induction text generalizing cells buffer with
  | nil => exact scanText_separators separators cells buffer h
  | cons c rest ih =>
    rw [List.cons_append]
    cases hc : isDigit c with
    | true => rw [scanText_cons_of_isDigit hc, scanText_cons_of_isDigit hc, ih]
    | false =>
      cases hf : flushToken cells buffer with
      | ok cells' => rw [scanText_separator_of_ok hc hf, scanText_separator_of_ok hc hf, ih]
      | error e => rw [scanText_separator_of_error hc hf, scanText_separator_of_error hc hf]

/-! ### The token sequence of a text -/

/-- At most sixteen numerals load as their values, and the scan of what follows goes on from them. -/
theorem loadTokens_textOfTokens_append (tokens : List Nibble) (rest : List Char) (h : tokens.length ≤ 16) :
    loadTokens (textOfTokens tokens ++ rest) = scanText rest tokens [] := by
  simpa [loadTokens] using scanText_textOfTokens tokens [] rest (by simpa using h)

theorem loadTokens_textOfTokens (tokens : List Nibble) (h : tokens.length ≤ 16) :
    loadTokens (textOfTokens tokens) = .ok tokens := by
  simpa [scanText] using loadTokens_textOfTokens_append tokens [] h

/-- Settles O42: the scan starts with no cells. -/
theorem loaderErrorsOnEveryText : Obligations.LoaderErrorsOnEveryText := fun text =>
  scanText_cases text [] [] (by decide)

/-- Settles O43, by induction on the text: at its end separators and the end of the stream do the same. -/
theorem trailingSeparatorsAddNothing : Obligations.TrailingSeparatorsAddNothing := fun text separators h =>
  scanText_append_separators text separators [] [] h

/-- Settles O41: the sixteen tokens fill the cells, and the run of digits is flushed by the separator after it or by the
end of the text. -/
theorem seventeenthTokenIsProgramTooLarge : Obligations.SeventeenthTokenIsProgramTooLarge := by
  intro tokens digits rest hlen hne hdigits hrest
  have hflush : flushToken tokens digits = .error .programTooLarge := flushToken_programTooLarge hlen.ge hne
  rw [List.append_assoc, loadTokens_textOfTokens_append tokens _ hlen.le, scanText_digits _ _ _ _ hdigits]
  cases rest with
  | nil => exact hflush
  | cons c rest => exact scanText_separator_of_error (hrest c rfl) hflush

/-! ### The image of a text (R150) -/

theorem loadImage_of_loadTokens {text : List Char} {tokens : List Nibble} (h : loadTokens text = .ok tokens) :
    loadImage text = .ok (imageOfTokens tokens) := by
  simp [loadImage, h]

theorem imageOfTokens_getElem (tokens : List Nibble) (k : Nat) (h : k < 16) :
    (imageOfTokens tokens)[k] = tokens.getD k 0#4 := by
  simp [imageOfTokens]

/-- The sixteen tokens of an image give the image. -/
theorem imageOfTokens_toList (image : Image) : imageOfTokens image.toList = image := by
  ext k hk
  rw [imageOfTokens_getElem _ k hk]
  simp [hk]

/-- No token gives the all-zero image. -/
theorem imageOfTokens_nil : imageOfTokens [] = Vector.replicate 16 0#4 := by
  ext k hk
  rw [imageOfTokens_getElem _ k hk]
  simp

/-- With 0 in cell 0 the first step after reset is HALT's, and ip ends at 1. -/
theorem step_resetWith_of_zero (p : Config.OobOperandPolicy) (image : Image) (h : image[0] = 0#4) :
    step (State.resetWith p image) = .next { State.resetWith p image with pc := 1#5, status := .halted } := by
  have hstands : (State.resetWith p image).standsAt 0#4 :=
    ⟨State.resetWith_status p image, by simp, (State.resetWith_opcodeAtPc p image).trans h⟩
  exact (oneCellRule_decodeCells 0#4 (by decide) _ hstands).trans (exec_halt _)

/-- Settles O40, from the image of a token sequence and the tokens of a text of numerals. -/
theorem loaderBuildsEveryImage : Obligations.LoaderBuildsEveryImage := by
  refine ⟨fun text tokens h => ?padded, loadTokens_textOfTokens, fun image => ?everyImage, fun p => ?emptyText⟩
  case padded => exact ⟨_, loadImage_of_loadTokens h, imageOfTokens_getElem tokens⟩
  case everyImage =>
    have hload := loadImage_of_loadTokens (loadTokens_textOfTokens image.toList (by simp))
    rwa [imageOfTokens_toList] at hload
  case emptyText =>
    exact ⟨imageOfTokens [], loadImage_of_loadTokens rfl, imageOfTokens_nil, step_resetWith_of_zero p _ rfl⟩

end Sys2Proof.Machine
end

section
/-! PROOFS. The result of a whole invocation (70_reset_and_hazards.md R156; 60_exceptions.md R126): what the user sees is
read off the state that `runFor` keeps, which is tied here to the host's `run`. -/

namespace Sys2Proof.Machine

/-! ### The state that `runFor` keeps -/

theorem runFor_succ_of_step {s t : State} (h : step s = .next t) (n : Nat) : runFor (n + 1) s = runFor n t := by
  simp only [runFor, h]

theorem runFor_succ_of_faulted {s : State} (h : s.status = .faulted) (n : Nat) : runFor (n + 1) s = s := by
  simp only [runFor, step_of_faulted s h]

theorem run_succ_of_faulted {s : State} (h : s.status = .faulted) (n : Nat) :
    Host.Core.run core (n + 1) s = .fault (.operandFetchOutOfRange s.pc) := by
  have hstep : core.step s = .fault (.operandFetchOutOfRange s.pc) := step_of_faulted s h
  simp only [Host.Core.run, hstep]

/-- Everything a run can answer: the state that `runFor` keeps, or the fault outcome, and then the state kept is FAULTED
(log entry 4). -/
theorem run_cases (n : Nat) (s : State) :
    Host.Core.run core n s = .next (runFor n s) ∨
    ((∃ f, Host.Core.run core n s = .fault f) ∧ (runFor n s).status = .faulted) := by
  induction n generalizing s with
  | zero => exact .inl rfl
  | succ n ih =>
    by_cases hs : s.status = .faulted
    · rw [run_succ_of_faulted hs, runFor_succ_of_faulted hs]
      exact .inr ⟨⟨_, rfl⟩, hs⟩
    · obtain ⟨t, h⟩ := step_isNext_of_safe s hs
      rw [run_succ_of_step h, runFor_succ_of_step h]
      exact ih t

theorem runFor_of_run_next {n : Nat} {s t : State} (h : Host.Core.run core n s = .next t) : runFor n s = t := by
  rcases run_cases n s with hnext | ⟨⟨f, hfault⟩, -⟩
  · cases hnext.symm.trans h
    rfl
  · cases hfault.symm.trans h

theorem runFor_faulted_of_run_fault {n : Nat} {s : State} {f : Fault} (h : Host.Core.run core n s = .fault f) :
    (runFor n s).status = .faulted := by
  rcases run_cases n s with hnext | ⟨-, hfaulted⟩
  · cases hnext.symm.trans h
  · exact hfaulted

/-! ### What the user sees -/

/-- The newline and the exit code are HALTED's alone (R95, R126). -/
theorem observe_eq (bell : Config.BellRendering) (s : State) :
    observe bell s =
      (if s.status = .halted
        then { stdout := renderTrace bell s.trace ++ ['\n'], exitCode := some 0, loadError := none }
        else { stdout := renderTrace bell s.trace, exitCode := none, loadError := none }) := by
  cases hs : s.status <;> simp [observe, hs]

section
variable (bell : Config.BellRendering) (p : Config.OobOperandPolicy) {args : List (Option (List Char))}
  {stdin : List Char} (fuel : Nat)

theorem invoke_of_error {e : LoadError} (h : loadInvocation args stdin = .error e) :
    invoke bell p args stdin fuel = { stdout := [], exitCode := some 1, loadError := some e } := by
  simp only [invoke, h]

theorem invoke_of_ok {image : Image} (h : loadInvocation args stdin = .ok image) :
    invoke bell p args stdin fuel = observe bell (runFor fuel (State.resetWith p image)) := by
  simp only [invoke, h]

end

/-- Settles O45: past a successful load the result is the observation of the state that `runFor` keeps, which is the run's
own last state, or FAULTED where the run answers the fault outcome. -/
theorem invocationResult : Obligations.InvocationResult := by
  intro bell p args stdin fuel
  refine ⟨fun e => invoke_of_error bell p fuel, fun image t hload hrun => ?answersNext,
    fun image f hload hrun => ?answersFault⟩
  case answersNext => rw [invoke_of_ok bell p fuel hload, runFor_of_run_next hrun, observe_eq]
  case answersFault =>
    have hfaulted := runFor_faulted_of_run_fault hrun
    refine ⟨hfaulted, ?_⟩
    rw [invoke_of_ok bell p fuel hload, observe_eq, if_neg (by simp [hfaulted])]

end Sys2Proof.Machine
end
